-- ==== Sys2Proof/Word.lean ====
section
/-! DEFINITION. The word types of the core (00_scope.md R5, 30_encoding.md R61). -/

namespace Sys2Proof

/-- A byte: a general register, a timer, one cell of memory (`XLEN` = 8, R5). -/
abbrev Byte := BitVec 8

/-- A 16-bit word: `PC`, `I`, a return address, an instruction word, `halt_info` (R5, R13, R14, R26). -/
abbrev Word := BitVec 16

/-- A four-bit field of an instruction word (R61). -/
abbrev Nibble := BitVec 4

/-- The 12-bit field `NNN` (R61). -/
abbrev Addr12 := BitVec 12

/-- The number of a general register, `V0` to `VF` (R10). -/
abbrev RegIx := Fin 16

/-- The index of a key, 0x0 to 0xF (R29, R163). -/
abbrev KeyIx := Fin 16

end Sys2Proof
end

