-- ==== Sys2Proof/Config.lean ====
section
/-! DEFINITION. The parameters of the core (00_scope.md R5): sizes the spec fixes, values it leaves open as constants
without a body, the instruction tags, and the operations a host can ask for. -/

namespace Sys2Proof

/-- The instruction tag (00_scope.md section 6): "the decoded identity of an instruction: one of 34 values, named by the
hex pattern". -/
inductive Tag where
  | t00E0 | t00EE | t1NNN | t2NNN | t3XNN | t4XNN | t5XY0 | t6XNN | t7XNN
  | t8XY0 | t8XY1 | t8XY2 | t8XY3 | t8XY4 | t8XY5 | t8XY6 | t8XY7 | t8XYE
  | t9XY0 | tANNN | tBNNN | tCXNN | tDXYN | tEX9E | tEXA1
  | tFX07 | tFX0A | tFX15 | tFX18 | tFX1E | tFX29 | tFX33 | tFX55 | tFX65
  deriving DecidableEq, Repr, Inhabited

/-- One operation the host performs on a constructed core (46_scheduler.md R150). `late` is how many microseconds after
the earliest moment at which the operation may be performed it is performed (log 2). -/
inductive HostTurn where
  /-- `step_cycle(rnd)` (R80). -/
  | stepCycle (late : Nat) (rnd : Byte)
  /-- `frame_tick()` (R160). -/
  | frameTick (late : Nat)
  /-- `key_event(k, pressed)` (R163). -/
  | keyEvent (late : Nat) (k : KeyIx) (pressed : Bool)
  /-- `read_fb()` (R150, R162). -/
  | readFb (late : Nat)
  deriving DecidableEq, Repr, Inhabited

namespace Config

/-- `MEM_SIZE` (R5). -/
abbrev memSize : Nat := 4096
/-- `PROG_BASE` (R5). -/
abbrev progBase : Nat := 0x200
/-- `PROG_MAX` (R5, D20). -/
abbrev progMax : Nat := 3584
/-- `FONT_BASE` (R5). -/
abbrev fontBase : Nat := 0x050
/-- `FONT_LEN` (R5). -/
abbrev fontLen : Nat := 80
/-- `GLYPH_LEN` (R5). -/
abbrev glyphLen : Nat := 5
/-- `FB_W` (R5). -/
abbrev fbW : Nat := 64
/-- `FB_H` (R5). -/
abbrev fbH : Nat := 32
/-- `T0` (R5, D14): "a model may take 0". DESIGN CHOICE, log 7. -/
abbrev t0 : Nat := 0
/-- The bound of the key tests, `VX < 0xF` taken literally (R140, C4, U7). Log 22. -/
abbrev keyTestBound : Nat := 0x0F

/-- `FONT[0..79]` (R5): OPEN, no source gives the bytes. A free value: it has no body. Log 4. -/
opaque font : Fin fontLen → Byte

/-- `FRAME_PERIOD_US` - 1 (R5, D15): the period is OPEN, "a positive integer". A free value. Log 6. -/
opaque framePeriodPred : Nat

/-- `FRAME_PERIOD_US` (R5): positive, and nothing else is known of it. -/
def framePeriodUs : Nat := framePeriodPred + 1

/-- `LAT` for the tags whose latency depends on the tag only (46_scheduler.md R156 (a)). A free value. Log 5. -/
opaque latFixed : Tag → Nat

/-- `LAT` of `DXYN` as a function of the row count `N` (R156 (b)). A free value. Log 5. -/
opaque latDraw : Nat → Nat

/-- `LAT` of `FX55` as a function of the register count `X` + 1 (R156 (c)). A free value. Log 5. -/
opaque latStore : Nat → Nat

/-- `LAT` of `FX65` as a function of the register count `X` + 1 (R156 (c)). A free value. Log 5. -/
opaque latLoad : Nat → Nat

/-- The host's `n`-th operation, where the agenda does not say it: which enabled operation runs first, when key events
fall and what byte `rnd` is are all left open (R155, D17, R111, D10). A free value. Log 1. -/
opaque hostTurn : Nat → HostTurn

/-- The random byte of a step placed by `State.withFetchWord` (R111, D10: any value). A free value. Log 3. -/
opaque hostRnd : Nat → Byte

end Config

end Sys2Proof
end

