-- ==== Sys2Proof/Syntax.lean ====
section
/-! DEFINITION. The instructions of spec/opcode_table.json (30_encoding.md R67), one constructor per row, named by the
row's tag. -/

namespace Sys2Proof

/-- One instruction with its operands (R62, R63). `x` and `y` name registers, `nn` and `nnn` are immediates, and `n` of
`DXYN` is a count of sprite rows (a `Nat`, at most 15 in a well-formed instruction). -/
inductive Instr where
  /-- Clear the screen (44_display.md R130). -/
  | op00E0
  /-- Return from subroutine (41_control_flow.md R90). -/
  | op00EE
  /-- Jump (R91). -/
  | op1NNN (nnn : Addr12)
  /-- Call subroutine (R92). -/
  | op2NNN (nnn : Addr12)
  /-- Skip if register equals constant (R93). -/
  | op3XNN (x : RegIx) (nn : Byte)
  /-- Skip if register differs from constant (R94). -/
  | op4XNN (x : RegIx) (nn : Byte)
  /-- Skip if registers are equal (R95). -/
  | op5XY0 (x : RegIx) (y : RegIx)
  /-- Load constant (42_alu.md R100). -/
  | op6XNN (x : RegIx) (nn : Byte)
  /-- Add constant, no flag (R101). -/
  | op7XNN (x : RegIx) (nn : Byte)
  /-- Set (R102). -/
  | op8XY0 (x : RegIx) (y : RegIx)
  /-- OR (R103). -/
  | op8XY1 (x : RegIx) (y : RegIx)
  /-- AND (R104). -/
  | op8XY2 (x : RegIx) (y : RegIx)
  /-- XOR (R105). -/
  | op8XY3 (x : RegIx) (y : RegIx)
  /-- Add with carry out (R106). -/
  | op8XY4 (x : RegIx) (y : RegIx)
  /-- Subtract (R107). -/
  | op8XY5 (x : RegIx) (y : RegIx)
  /-- Shift right by one (R108). -/
  | op8XY6 (x : RegIx) (y : RegIx)
  /-- Reverse subtract (R109). -/
  | op8XY7 (x : RegIx) (y : RegIx)
  /-- Shift left by one (R110). -/
  | op8XYE (x : RegIx) (y : RegIx)
  /-- Skip if registers differ (R96). -/
  | op9XY0 (x : RegIx) (y : RegIx)
  /-- Load index (43_index_memory.md R120). -/
  | opANNN (nnn : Addr12)
  /-- Jump with offset (R97); `X` is the top nibble of `NNN` (R64). -/
  | opBNNN (nnn : Addr12)
  /-- Random (R111). -/
  | opCXNN (x : RegIx) (nn : Byte)
  /-- Draw sprite of `n` rows (44_display.md R132). -/
  | opDXYN (x : RegIx) (y : RegIx) (n : Nat)
  /-- Skip if key pressed (45_keypad_timers.md R140). -/
  | opEX9E (x : RegIx)
  /-- Skip if key not pressed (R141). -/
  | opEXA1 (x : RegIx)
  /-- Read delay timer (R143). -/
  | opFX07 (x : RegIx)
  /-- Wait for key (R142). -/
  | opFX0A (x : RegIx)
  /-- Set delay timer (R144). -/
  | opFX15 (x : RegIx)
  /-- Set sound timer (R145). -/
  | opFX18 (x : RegIx)
  /-- Add register to index (R121). -/
  | opFX1E (x : RegIx)
  /-- Point index at font glyph (R122). -/
  | opFX29 (x : RegIx)
  /-- Store binary-coded decimal (R123). -/
  | opFX33 (x : RegIx)
  /-- Store registers V0 to VX (R124). -/
  | opFX55 (x : RegIx)
  /-- Load registers V0 to VX (R125). -/
  | opFX65 (x : RegIx)
  deriving DecidableEq, Repr

/-- The tag of an instruction (00_scope.md section 6). -/
def Instr.tag : Instr → Tag
  | .op00E0 => .t00E0
  | .op00EE => .t00EE
  | .op1NNN _ => .t1NNN
  | .op2NNN _ => .t2NNN
  | .op3XNN _ _ => .t3XNN
  | .op4XNN _ _ => .t4XNN
  | .op5XY0 _ _ => .t5XY0
  | .op6XNN _ _ => .t6XNN
  | .op7XNN _ _ => .t7XNN
  | .op8XY0 _ _ => .t8XY0
  | .op8XY1 _ _ => .t8XY1
  | .op8XY2 _ _ => .t8XY2
  | .op8XY3 _ _ => .t8XY3
  | .op8XY4 _ _ => .t8XY4
  | .op8XY5 _ _ => .t8XY5
  | .op8XY6 _ _ => .t8XY6
  | .op8XY7 _ _ => .t8XY7
  | .op8XYE _ _ => .t8XYE
  | .op9XY0 _ _ => .t9XY0
  | .opANNN _ => .tANNN
  | .opBNNN _ => .tBNNN
  | .opCXNN _ _ => .tCXNN
  | .opDXYN _ _ _ => .tDXYN
  | .opEX9E _ => .tEX9E
  | .opEXA1 _ => .tEXA1
  | .opFX07 _ => .tFX07
  | .opFX0A _ => .tFX0A
  | .opFX15 _ => .tFX15
  | .opFX18 _ => .tFX18
  | .opFX1E _ => .tFX1E
  | .opFX29 _ => .tFX29
  | .opFX33 _ => .tFX33
  | .opFX55 _ => .tFX55
  | .opFX65 _ => .tFX65

end Sys2Proof
end

