-- ==== Sys2Proof/Decode.lean ====
section
/-! DEFINITION. The decoder (30_encoding.md R60 to R70), total on any bytes and rejecting by name, and after it the
encoder. -/

namespace Sys2Proof

/-! ### Fields (R61) -/

/-- `op`, bits 15 to 12 (R61). -/
def fieldOp (w : Word) : Nibble := w.extractLsb' 12 4
/-- `X`, bits 11 to 8, as a register number (R61). -/
def fieldX (w : Word) : RegIx := (w.extractLsb' 8 4).toFin
/-- `Y`, bits 7 to 4, as a register number (R61). -/
def fieldY (w : Word) : RegIx := (w.extractLsb' 4 4).toFin
/-- `N`, bits 3 to 0 (R61). -/
def fieldN (w : Word) : Nibble := w.extractLsb' 0 4
/-- `NN`, bits 7 to 0 (R61). -/
def fieldNN (w : Word) : Byte := w.extractLsb' 0 8
/-- `NNN`, bits 11 to 0 (R61). -/
def fieldNNN (w : Word) : Addr12 := w.extractLsb' 0 12

/-! ### Dispatch (R65) -/

/-- Why bytes are no instruction: the four groups of illegal words of R69, and too few bytes. -/
inductive DecodeReject where
  /-- `0NNN` with `NNN` neither 0x0E0 nor 0x0EE (R68, R69 (a)). -/
  | illegal0NNN (w : Word)
  /-- `8XYn` with n in 0x8 to 0xD or 0xF (R69 (b)). -/
  | illegal8XYn (w : Word)
  /-- `EXnn` with `NN` neither 0x9E nor 0xA1 (R69 (c)). -/
  | illegalEXnn (w : Word)
  /-- `FXnn` with `NN` not one of the nine of R69 (d). -/
  | illegalFXnn (w : Word)
  /-- Fewer than the two bytes of an instruction (R60). -/
  | truncated
  deriving DecidableEq, Repr

/-- Secondary dispatch of `op` 0x0 on the whole of `NNN` (R65, R68). -/
def decodeOp0 (w : Word) : Except DecodeReject Instr :=
  match (fieldNNN w).toNat with
  | 0x0E0 => .ok .op00E0
  | 0x0EE => .ok .op00EE
  | _ => .error (.illegal0NNN w)

/-- Secondary dispatch of `op` 0x8 on `N` (R65). -/
def decodeOp8 (w : Word) : Except DecodeReject Instr :=
  match (fieldN w).toNat with
  | 0x0 => .ok (.op8XY0 (fieldX w) (fieldY w))
  | 0x1 => .ok (.op8XY1 (fieldX w) (fieldY w))
  | 0x2 => .ok (.op8XY2 (fieldX w) (fieldY w))
  | 0x3 => .ok (.op8XY3 (fieldX w) (fieldY w))
  | 0x4 => .ok (.op8XY4 (fieldX w) (fieldY w))
  | 0x5 => .ok (.op8XY5 (fieldX w) (fieldY w))
  | 0x6 => .ok (.op8XY6 (fieldX w) (fieldY w))
  | 0x7 => .ok (.op8XY7 (fieldX w) (fieldY w))
  | 0xE => .ok (.op8XYE (fieldX w) (fieldY w))
  | _ => .error (.illegal8XYn w)

/-- Secondary dispatch of `op` 0xE on `NN` (R65). -/
def decodeOpE (w : Word) : Except DecodeReject Instr :=
  match (fieldNN w).toNat with
  | 0x9E => .ok (.opEX9E (fieldX w))
  | 0xA1 => .ok (.opEXA1 (fieldX w))
  | _ => .error (.illegalEXnn w)

/-- Secondary dispatch of `op` 0xF on `NN` (R65). -/
def decodeOpF (w : Word) : Except DecodeReject Instr :=
  match (fieldNN w).toNat with
  | 0x07 => .ok (.opFX07 (fieldX w))
  | 0x0A => .ok (.opFX0A (fieldX w))
  | 0x15 => .ok (.opFX15 (fieldX w))
  | 0x18 => .ok (.opFX18 (fieldX w))
  | 0x1E => .ok (.opFX1E (fieldX w))
  | 0x29 => .ok (.opFX29 (fieldX w))
  | 0x33 => .ok (.opFX33 (fieldX w))
  | 0x55 => .ok (.opFX55 (fieldX w))
  | 0x65 => .ok (.opFX65 (fieldX w))
  | _ => .error (.illegalFXnn w)

/-- `Decode(w)` (R65, R83): primary dispatch on `op`. It reads nothing but `w`. For `op` 0x5 and 0x9 the field `N` is not
looked at (R66). -/
def decodeWord (w : Word) : Except DecodeReject Instr :=
  match (fieldOp w).toNat with
  | 0x0 => decodeOp0 w
  | 0x1 => .ok (.op1NNN (fieldNNN w))
  | 0x2 => .ok (.op2NNN (fieldNNN w))
  | 0x3 => .ok (.op3XNN (fieldX w) (fieldNN w))
  | 0x4 => .ok (.op4XNN (fieldX w) (fieldNN w))
  | 0x5 => .ok (.op5XY0 (fieldX w) (fieldY w))
  | 0x6 => .ok (.op6XNN (fieldX w) (fieldNN w))
  | 0x7 => .ok (.op7XNN (fieldX w) (fieldNN w))
  | 0x8 => decodeOp8 w
  | 0x9 => .ok (.op9XY0 (fieldX w) (fieldY w))
  | 0xA => .ok (.opANNN (fieldNNN w))
  | 0xB => .ok (.opBNNN (fieldNNN w))
  | 0xC => .ok (.opCXNN (fieldX w) (fieldNN w))
  | 0xD => .ok (.opDXYN (fieldX w) (fieldY w) (fieldN w).toNat)
  | 0xE => decodeOpE w
  | _ => decodeOpF w -- 0xF, the one value left of four bits

/-- The instruction word of two bytes, the first the most significant (R47). -/
def wordOfBytes (hi lo : Byte) : Word := hi ++ lo

/-- Decoding a list of bytes: the instruction and the bytes after it. Every instruction has two bytes (R60). -/
def decode : List Byte → Except DecodeReject (Instr × List Byte)
  | hi :: lo :: rest =>
    match decodeWord (wordOfBytes hi lo) with
    | .ok i => .ok (i, rest)
    | .error r => .error r
  | _ => .error .truncated

/-! ### The opcode map (R67) -/

/-- The `match` column of the opcode map (R67). -/
def Tag.matchWord : Tag → Word
  | .t00E0 => 0x00E0
  | .t00EE => 0x00EE
  | .t1NNN => 0x1000
  | .t2NNN => 0x2000
  | .t3XNN => 0x3000
  | .t4XNN => 0x4000
  | .t5XY0 => 0x5000
  | .t6XNN => 0x6000
  | .t7XNN => 0x7000
  | .t8XY0 => 0x8000
  | .t8XY1 => 0x8001
  | .t8XY2 => 0x8002
  | .t8XY3 => 0x8003
  | .t8XY4 => 0x8004
  | .t8XY5 => 0x8005
  | .t8XY6 => 0x8006
  | .t8XY7 => 0x8007
  | .t8XYE => 0x800E
  | .t9XY0 => 0x9000
  | .tANNN => 0xA000
  | .tBNNN => 0xB000
  | .tCXNN => 0xC000
  | .tDXYN => 0xD000
  | .tEX9E => 0xE09E
  | .tEXA1 => 0xE0A1
  | .tFX07 => 0xF007
  | .tFX0A => 0xF00A
  | .tFX15 => 0xF015
  | .tFX18 => 0xF018
  | .tFX1E => 0xF01E
  | .tFX29 => 0xF029
  | .tFX33 => 0xF033
  | .tFX55 => 0xF055
  | .tFX65 => 0xF065

/-- The `mask` column of the opcode map (R67). -/
def Tag.maskWord : Tag → Word
  | .t00E0 => 0xFFFF
  | .t00EE => 0xFFFF
  | .t1NNN => 0xF000
  | .t2NNN => 0xF000
  | .t3XNN => 0xF000
  | .t4XNN => 0xF000
  | .t5XY0 => 0xF000
  | .t6XNN => 0xF000
  | .t7XNN => 0xF000
  | .t8XY0 => 0xF00F
  | .t8XY1 => 0xF00F
  | .t8XY2 => 0xF00F
  | .t8XY3 => 0xF00F
  | .t8XY4 => 0xF00F
  | .t8XY5 => 0xF00F
  | .t8XY6 => 0xF00F
  | .t8XY7 => 0xF00F
  | .t8XYE => 0xF00F
  | .t9XY0 => 0xF000
  | .tANNN => 0xF000
  | .tBNNN => 0xF000
  | .tCXNN => 0xF000
  | .tDXYN => 0xF000
  | .tEX9E => 0xF0FF
  | .tEXA1 => 0xF0FF
  | .tFX07 => 0xF0FF
  | .tFX0A => 0xF0FF
  | .tFX15 => 0xF0FF
  | .tFX18 => 0xF0FF
  | .tFX1E => 0xF0FF
  | .tFX29 => 0xF0FF
  | .tFX33 => 0xF0FF
  | .tFX55 => 0xF0FF
  | .tFX65 => 0xF0FF

/-! ### The encoder -/

/-- A word of the formats `XY` and `XYN` (R61, R62). -/
def packXYN (op : Nibble) (x y : RegIx) (n : Nibble) : Word := op ++ BitVec.ofFin (w := 4) x ++ BitVec.ofFin (w := 4) y ++ n
/-- A word of the formats `XNN` and `X` (R61, R62). -/
def packXNN (op : Nibble) (x : RegIx) (nn : Byte) : Word := op ++ BitVec.ofFin (w := 4) x ++ nn
/-- A word of the format `NNN` (R61, R62). -/
def packNNN (op : Nibble) (nnn : Addr12) : Word := op ++ nnn

/-- The word of an instruction, written from the rows of R67 and the field places of R61; the canonical encoding of
`5XY0` and `9XY0` has `N` = 0 (R66). -/
def encodeWord : Instr → Word
  | .op00E0 => 0x00E0
  | .op00EE => 0x00EE
  | .op1NNN nnn => packNNN 0x1 nnn
  | .op2NNN nnn => packNNN 0x2 nnn
  | .op3XNN x nn => packXNN 0x3 x nn
  | .op4XNN x nn => packXNN 0x4 x nn
  | .op5XY0 x y => packXYN 0x5 x y 0x0
  | .op6XNN x nn => packXNN 0x6 x nn
  | .op7XNN x nn => packXNN 0x7 x nn
  | .op8XY0 x y => packXYN 0x8 x y 0x0
  | .op8XY1 x y => packXYN 0x8 x y 0x1
  | .op8XY2 x y => packXYN 0x8 x y 0x2
  | .op8XY3 x y => packXYN 0x8 x y 0x3
  | .op8XY4 x y => packXYN 0x8 x y 0x4
  | .op8XY5 x y => packXYN 0x8 x y 0x5
  | .op8XY6 x y => packXYN 0x8 x y 0x6
  | .op8XY7 x y => packXYN 0x8 x y 0x7
  | .op8XYE x y => packXYN 0x8 x y 0xE
  | .op9XY0 x y => packXYN 0x9 x y 0x0
  | .opANNN nnn => packNNN 0xA nnn
  | .opBNNN nnn => packNNN 0xB nnn
  | .opCXNN x nn => packXNN 0xC x nn
  | .opDXYN x y n => packXYN 0xD x y (BitVec.ofNat 4 n)
  | .opEX9E x => packXNN 0xE x 0x9E
  | .opEXA1 x => packXNN 0xE x 0xA1
  | .opFX07 x => packXNN 0xF x 0x07
  | .opFX0A x => packXNN 0xF x 0x0A
  | .opFX15 x => packXNN 0xF x 0x15
  | .opFX18 x => packXNN 0xF x 0x18
  | .opFX1E x => packXNN 0xF x 0x1E
  | .opFX29 x => packXNN 0xF x 0x29
  | .opFX33 x => packXNN 0xF x 0x33
  | .opFX55 x => packXNN 0xF x 0x55
  | .opFX65 x => packXNN 0xF x 0x65

/-- The high byte of a word, which stands at the lower address (R47). -/
def highByte (w : Word) : Byte := w.extractLsb' 8 8
/-- The low byte of a word, which stands at the higher address (R47). -/
def lowByte (w : Word) : Byte := w.extractLsb' 0 8

/-- The bytes of an instruction, lowest address first (R47, R60). -/
def encode (i : Instr) : List Byte := [highByte (encodeWord i), lowByte (encodeWord i)]

/-- The instruction word that a row's bits stand for: `nbits` bits of `w`, every bit above them 0. -/
def tableWord (nbits w : Nat) : Word := BitVec.ofNat 16 (w % 2 ^ nbits)

/-- The instruction the decoder reads from a word numbered as spec/opcode_table.json numbers it. -/
def decodeTableWord (nbits w : Nat) : Option Instr :=
  match decode [highByte (tableWord nbits w), lowByte (tableWord nbits w)] with
  | .ok (i, _) => some i
  | .error _ => none

end Sys2Proof
end

