-- ==== Sys2Proof/Machine/State.lean ====
section
/-! DEFINITION. Everything the spec gives the core to hold (10_state.md), as plain data, and the state after reset. -/

namespace Sys2Proof.Machine

/-- Main memory (10_state.md R27): a list of (address, byte) in one canonical form (`Memory.wf` in Machine/Ops.lean). An
address that is not listed reads as after construction (R32, R41). -/
abbrev Memory := List Host.Cell

/-- The framebuffer (R28): 32 rows of 64 pixels, `fb[y][x]`; true is on. -/
abbrev Framebuffer := Vector (Vector Bool 64) 32

/-- `halt_cause` (R26, 60_exceptions.md R171). -/
inductive HaltCause where
  | none
  | illegalOpcode
  | stackUnderflow
  | fetchOutOfRange
  | dataOutOfRange
  deriving DecidableEq, Repr

/-- The code of a cause (R26 "encoded 0 to 4", R171). -/
def HaltCause.code : HaltCause → Nat
  | .none => 0
  | .illegalOpcode => 1
  | .stackUnderflow => 2
  | .fetchOutOfRange => 3
  | .dataOutOfRange => 4

/-- Why an operation of the model ends without a state. The four faults of the core (R171) are NOT here: raising one is a
next state, the halted one. -/
inductive Fault where
  /-- Raised by `construct` alone, never by a step: the program has more than `PROG_MAX` bytes and is "rejected before
  execution begins (loader responsibility, not the core's)" (70_reset_and_hazards.md R193). Safe: no core comes into
  being. -/
  | programTooLong (length : Nat)
  deriving DecidableEq, Repr

/-- Why an instruction has no meaning in the model. -/
inductive Refusal where
  /-- Would be raised by an arm of `exec` for an instruction without a meaning; every instruction has one, so nothing
  raises it. Safe. -/
  | notModelled (mnemonic : String)
  deriving DecidableEq, Repr

/-- The state of the core, and the inputs and outputs of its ports. -/
@[ext]
structure State where
  /-- `V0` to `VF` (R10); `VF` is also the flag (R11). -/
  v : Vector Byte 16
  /-- The index register `I`, 16 bits, not masked to 12 (R13). -/
  i : Word
  /-- The program counter `PC` (R14). -/
  pc : Word
  /-- The call stack, the top first; unbounded (R15). -/
  stack : List Word
  /-- The delay timer `DT` (R20). -/
  dt : Byte
  /-- The sound timer `ST` (R21). -/
  st : Byte
  /-- The behaviour mode: true is legacy CosmicVIP, false is modern (R22). -/
  legacy : Bool
  /-- `redraw_pending` (R23). -/
  redrawPending : Bool
  /-- `next_cycle_due`, in microseconds (R24). -/
  nextCycleDue : Nat
  /-- `next_frame_due`, in microseconds (R25). -/
  nextFrameDue : Nat
  /-- `halted` (R26). -/
  halted : Bool
  /-- `halt_cause` (R26). -/
  haltCause : HaltCause
  /-- `halt_info` (R26). -/
  haltInfo : Word
  /-- Main memory (R27). -/
  mem : Memory
  /-- The framebuffer (R28). -/
  fb : Framebuffer
  /-- The input latch (R29). -/
  keys : Vector Bool 16
  /-- INPUT: the time base `now` in microseconds (46_scheduler.md R151). The model's own field, log 2. -/
  now : Nat
  /-- INPUT: the byte `rnd` of the step being performed (R80, R111). The model's own field, log 3. -/
  rnd : Byte
  /-- INPUT: the host's next operations that are already decided, the next one first (R31, R155). The model's own field,
  log 1. -/
  agenda : List HostTurn
  /-- How many operations the host has performed; past the agenda, the index of the next free one. The model's own
  field, log 1. -/
  turnsTaken : Nat
  /-- OUTPUT: the last snapshot of the framebuffer given to the presentation layer (R162). The model's own field,
  log 13. -/
  presented : Option Framebuffer
  deriving DecidableEq, Repr

/-- The state right after construction (R32, R190) with the empty program in modern mode (log 8), at `T0` (log 7). The
program counter, the font and `legacy` are the source's; every other value is the spec's decision D11, D14 or D4 (log 9). -/
def State.reset : State where
  v := Vector.replicate 16 0x00
  i := 0x0000
  pc := 0x0200
  stack := []
  dt := 0x00
  st := 0x00
  legacy := false
  redrawPending := false
  nextCycleDue := Config.t0
  nextFrameDue := Config.t0 + Config.framePeriodUs
  halted := false
  haltCause := .none
  haltInfo := 0x0000
  mem := []
  fb := Vector.replicate 32 (Vector.replicate 64 false)
  keys := Vector.replicate 16 false
  now := Config.t0
  rnd := 0x00
  agenda := []
  turnsTaken := 0
  presented := none

end Sys2Proof.Machine
end

