-- ==== Sys2Proof/Machine/Ops.lean ====
section
/-! DEFINITION. The named operations over memory, registers, stack, framebuffer and latch, and taking a fault. -/

namespace Sys2Proof.Machine

/-! ### Main memory (20_memory.md) -/

/-- What an address reads as after construction before any write and outside the program (R32, R41): the font table at
0x050 to 0x09F (a free value, log 4), 0x00 elsewhere (D11, log 10). -/
def Memory.unlisted (a : Nat) : Byte :=
  if h : Config.fontBase ≤ a ∧ a < Config.fontBase + Config.fontLen then Config.font ⟨a - Config.fontBase, by omega⟩
  else 0x00

/-- The canonical form: addresses strictly rising, inside the 4096 bytes of R27, no entry equal to what an unlisted
address reads as. -/
abbrev Memory.wf (m : Memory) : Prop :=
  m.Pairwise (fun c d => c.1 < d.1) ∧ ∀ c ∈ m, c.1 < Config.memSize ∧ c.2 ≠ Memory.unlisted c.1

/-- One byte of memory, `mem[a]`. -/
def Memory.read : Memory → Nat → Byte
  | [], a => Memory.unlisted a
  | c :: rest, a => if c.1 = a then c.2 else Memory.read rest a

/-- Put an entry at its place by address. -/
def Memory.insert (a : Nat) (b : Byte) : Memory → Memory
  | [] => [(a, b)]
  | c :: rest => if a < c.1 then (a, b) :: c :: rest else c :: Memory.insert a b rest

/-- `mem[a] <- b` (R45). Writing what an unlisted address reads as removes the entry; there is no byte at 4096 or above
(callers have checked the range). -/
def Memory.write (m : Memory) (a : Nat) (b : Byte) : Memory :=
  let others := m.filter (fun c => c.1 ≠ a)
  if Config.memSize ≤ a then m
  else if b = Memory.unlisted a then others
  else Memory.insert a b others

/-- Write bytes at ascending addresses. -/
def Memory.writeAll (m : Memory) (a : Nat) : List Byte → Memory
  | [] => m
  | b :: rest => Memory.writeAll (m.write a b) (a + 1) rest

/-! ### Registers and the other fields -/

/-- `V[x]` (10_state.md R10). -/
def State.reg (s : State) (x : RegIx) : Byte := s.v[x]
/-- `V[x] <- b` (R10). No register is hardwired. -/
def State.setReg (s : State) (x : RegIx) (b : Byte) : State := { s with v := s.v.set x.val b x.isLt }
/-- `I <- w` (R13). -/
def State.setIndex (s : State) (w : Word) : State := { s with i := w }
/-- `PC <- w` (R14): any 16-bit value, no target is checked (41_control_flow.md R99). -/
def State.setPc (s : State) (w : Word) : State := { s with pc := w }
/-- The stack becomes `l` (R15). -/
def State.setStack (s : State) (l : List Word) : State := { s with stack := l }
/-- `DT <- b` (R20). -/
def State.setDelay (s : State) (b : Byte) : State := { s with dt := b }
/-- `ST <- b` (R21). -/
def State.setSound (s : State) (b : Byte) : State := { s with st := b }
/-- The framebuffer becomes `f` (R28). -/
def State.setFb (s : State) (f : Framebuffer) : State := { s with fb := f }
/-- `redraw_pending <- b` (R23). -/
def State.setRedraw (s : State) (b : Bool) : State := { s with redrawPending := b }
/-- `keys[k] <- b` (R29). -/
def State.setKey (s : State) (k : KeyIx) (b : Bool) : State := { s with keys := s.keys.set k.val b k.isLt }
/-- Memory becomes `m` (R27). -/
def State.setMem (s : State) (m : Memory) : State := { s with mem := m }
/-- `next_cycle_due <- next_cycle_due + us` (40_sequencer.md R86). -/
def State.chargeCycle (s : State) (us : Nat) : State := { s with nextCycleDue := s.nextCycleDue + us }
/-- The time base shows `t` (R151). -/
def State.setNow (s : State) (t : Nat) : State := { s with now := t }
/-- The input `rnd` shows `b` (R80). -/
def State.setRnd (s : State) (b : Byte) : State := { s with rnd := b }
/-- The framebuffer as it stands is given to the presentation layer (R162). -/
def State.present (s : State) : State := { s with presented := some s.fb }

/-! ### Program counter and stack (40_sequencer.md R82, 41_control_flow.md) -/

/-- The advance of `PC` by 2, modulo 2^16, after the fetch (R82). -/
def State.advance (s : State) : State := s.setPc (s.pc + 2)
/-- A skip: 2 more, on the advanced `PC` (R98). -/
def State.skip (s : State) : State := s.setPc (s.pc + 2)
/-- `PC - 2` modulo 2^16: back to the address of the executing instruction (R82 (d)). -/
def State.rewind (s : State) : State := s.setPc (s.pc - 2)
/-- A skip on a condition. -/
def State.skipIf (s : State) (c : Bool) : State := if c then s.skip else s
/-- `push(stack, w)` (R15, R92). -/
def State.push (s : State) (w : Word) : State := s.setStack (w :: s.stack)

/-! ### Taking a fault (60_exceptions.md R170 to R176) -/

/-- `raise F(info)` in a state whose `PC` holds the address of the faulting instruction and which the step has not
changed (R172): the core halts with the cause and the info. There is no return from it (R180). -/
def raise (c : HaltCause) (info : Word) (s : State) : State :=
  { s with halted := true, haltCause := c, haltInfo := info }

/-- `raise` from the execute phase: the one write made by then, the advance of `PC`, is undone first (R85, R172). -/
def abandon (c : HaltCause) (info : Word) (s : State) : State := raise c info s.rewind

/-! ### The memory primitives (R43 to R46) -/

/-- The range check of R44 to R46: with `count` > 0 and the last address above 0xFFF, the first address of the run above
0xFFF, truncated to 16 bits; nothing otherwise. Addresses are not wrapped (R43). -/
def rangeFault (addr count : Nat) : Option Word :=
  if 0 < count ∧ 0xFFF < addr + count - 1 then some (BitVec.ofNat 16 (max addr 0x1000)) else none

/-- `MemRead(addr, n)` (R44): the bytes at `addr` to `addr + n - 1`, lowest first, or the first offending address. -/
def memRead (addr n : Nat) (s : State) : Except Word (List Byte) :=
  match rangeFault addr n with
  | some bad => .error bad
  | none => .ok ((List.range n).map fun j => s.mem.read (addr + j))

/-- The writes of one instruction (R45) after the check of their whole range (R46), or the first offending address. -/
def memWrite (addr : Nat) (bytes : List Byte) (s : State) : Except Word State :=
  match rangeFault addr bytes.length with
  | some bad => .error bad
  | none => .ok (s.setMem (s.mem.writeAll addr bytes))

/-- The rest of an instruction after its memory access: `DataOutOfRange` with the first offending address (R176), or `k`
of what the access gave. -/
def afterAccess {α : Type} (s : State) (r : Except Word α) (k : α → State) : Host.Outcome State Fault Refusal :=
  match r with
  | .error bad => .next (abandon .dataOutOfRange bad s)
  | .ok a => .next (k a)

/-- `Fetch(pc0)` (40_sequencer.md R81, R47): the big-endian word at `PC`, or `PC` itself when a byte of it lies outside
memory. No alignment is required (R48). -/
def fetch (s : State) : Except Word Word :=
  if 0xFFE < s.pc.toNat then .error s.pc
  else .ok (s.mem.read s.pc.toNat ++ s.mem.read (s.pc.toNat + 1))

/-! ### The framebuffer (44_display.md R131) -/

/-- The pixel in column `x` and row `y`; no pixel outside the grid is on. -/
def Framebuffer.pixel (f : Framebuffer) (x y : Nat) : Bool :=
  if h : x < 64 ∧ y < 32 then (f[y]'h.2)[x]'h.1 else false

/-- XOR 1 into the pixel in column `x` and row `y`; nothing outside the grid. -/
def Framebuffer.flip (f : Framebuffer) (x y : Nat) : Framebuffer :=
  if h : x < 64 ∧ y < 32 then f.set y ((f[y]'h.2).set x (!(f[y]'h.2)[x]'h.1) h.1) h.2 else f

/-- Every pixel off (R130). -/
def Framebuffer.clear : Framebuffer := Vector.replicate 32 (Vector.replicate 64 false)

/-- The pixels on the screen that a sprite at (`x0`, `y0`) sets, row by row from the top and in a row from bit 7 down; a
pixel whose column exceeds 63 or whose row exceeds 31 is dropped (R131, R132). -/
def spritePixels (x0 y0 : Nat) (bytes : List Byte) : List (Nat × Nat) :=
  bytes.zipIdx.flatMap fun br =>
    (List.range 8).filterMap fun c =>
      if br.1.getMsbD c ∧ x0 + c ≤ 63 ∧ y0 + br.2 ≤ 31 then some (x0 + c, y0 + br.2) else none

/-- One pixel of the XOR-blit: `hit` is set if the pixel was on, then the pixel is flipped (R132). -/
def drawPixel (acc : Framebuffer × Bool) (p : Nat × Nat) : Framebuffer × Bool :=
  (Framebuffer.flip acc.1 p.1 p.2, acc.2 || Framebuffer.pixel acc.1 p.1 p.2)

/-- The XOR-blit of a sprite (R132): the new framebuffer and whether a pixel that was on was turned off. -/
def drawSprite (f : Framebuffer) (x0 y0 : Nat) (bytes : List Byte) : Framebuffer × Bool :=
  (spritePixels x0 y0 bytes).foldl drawPixel (f, false)

/-! ### The input latch (R29) -/

/-- `keys[k]`. -/
def State.key (s : State) (k : KeyIx) : Bool := s.keys[k]

/-- The least pressed key (45_keypad_timers.md R142, D9, log 21). -/
def State.leastKey (s : State) : Option KeyIx :=
  [0, 1, 2, 3, 4, 5, 6, 7, 8, 9, 10, 11, 12, 13, 14, 15].find? fun k => s.key k

end Sys2Proof.Machine
end

