-- ==== Sys2Proof/Machine/Flags.lean ====
section
/-! DEFINITION. The values of the flag `VF` (10_state.md R11, 42_alu.md R112) and the order of its write (R12). -/

namespace Sys2Proof.Machine

/-- The number of `VF` (R11). -/
abbrev regF : RegIx := 15

/-- A flag as the byte `VF` takes. -/
def flagByte (b : Bool) : Byte := if b then 1 else 0

/-- Carry out of `8XY4`: the sum exceeds 255 (R106; D8, log 18). -/
def carryOut (a b : Byte) : Bool := decide (255 < a.toNat + b.toNat)

/-- No borrow in `a - b`, equality included (R107, R109; D8, log 18). -/
def noBorrow (a b : Byte) : Bool := decide (b.toNat ≤ a.toNat)

/-- The bit a right shift shifts out (R108). -/
def outRight (v : Byte) : Bool := v.getLsbD 0

/-- The bit a left shift shifts out (R110). -/
def outLeft (v : Byte) : Bool := v.getLsbD 7

/-- The condition of `FX1E` on the new 16-bit value of `I` (R121; D6, log 20). -/
def indexOverflow (w : Word) : Bool := decide (0x1000 ≤ w.toNat)

/-- "First every source operand is read (latched), then the result is written to `VX`, then the flag is written to `VF`"
(R12, D7, log 19): the two writes, in that order. -/
def State.setResultFlag (s : State) (x : RegIx) (result : Byte) (flag : Bool) : State :=
  (s.setReg x result).setReg regF (flagByte flag)

end Sys2Proof.Machine
end

