-- ==== Sys2Proof/Machine/Operands.lean ====
section
/-! DEFINITION. The operand forms of 30_encoding.md R63 and R64 and of the mode-dependent instructions (00_scope.md R2). -/

namespace Sys2Proof.Machine

/-- An absolute 12-bit address, zero-extended (R63). -/
def immAddr (nnn : Addr12) : Word := nnn.setWidth 16

/-- A register, zero-extended to 16 bits (R97, R121). -/
def State.regExt (s : State) (x : RegIx) : Word := (s.reg x).setWidth 16

/-- `X` of `BNNN`: the top nibble of `NNN` (R64). -/
def topNibble (nnn : Addr12) : RegIx := (nnn.extractLsb' 8 4).toFin

/-- The offset register of `BNNN`: `V0` in legacy mode, `VX` in modern mode (R97). -/
def State.jumpOffset (s : State) (nnn : Addr12) : Word :=
  if s.legacy then s.regExt 0 else s.regExt (topNibble nnn)

/-- The value `8XY6` and `8XYE` shift: `VY` in legacy mode, `VX` in modern mode (R108, R110). -/
def State.shiftSource (s : State) (x y : RegIx) : Byte :=
  if s.legacy then s.reg y else s.reg x

/-- The address of the font glyph for the low nibble of a register (R122). -/
def glyphAddr (b : Byte) : Word := BitVec.ofNat 16 (Config.fontBase + Config.glyphLen * (b.toNat % 16))

/-- The decimal digits of a byte: hundreds, tens, ones (R123). -/
def bcdDigits (a : Byte) : List Byte :=
  [BitVec.ofNat 8 (a.toNat / 100), BitVec.ofNat 8 (a.toNat / 10 % 10), BitVec.ofNat 8 (a.toNat % 10)]

/-- The run `V0` to `VX`, `X` included, `V0` first (R63, R124). -/
def State.regRun (s : State) (x : RegIx) : List Byte := s.v.toList.take (x.val + 1)

/-- Write bytes to the registers from number `j` upward (R125). -/
def State.loadRegs (s : State) (j : Nat) : List Byte → State
  | [] => s
  | b :: rest => State.loadRegs (if h : j < 16 then s.setReg ⟨j, h⟩ b else s) (j + 1) rest

/-- The advance of `I` after `FX55` and `FX65`: by X + 1 modulo 2^16 in legacy mode, none in modern mode (R124, R125). -/
def State.advanceIndex (s : State) (x : RegIx) : State :=
  if s.legacy then s.setIndex (s.i + BitVec.ofNat 16 (x.val + 1)) else s

/-- The column of a sprite's origin (R131). -/
def State.originX (s : State) (x : RegIx) : Nat := (s.reg x).toNat % Config.fbW

/-- The row of a sprite's origin (R131). -/
def State.originY (s : State) (y : RegIx) : Nat := (s.reg y).toNat % Config.fbH

/-- The key that `VX` names in `EX9E` and `EXA1`, only when `VX` < 0xF as a whole 8-bit value (R140, C4, log 22). -/
def State.testedKey (s : State) (x : RegIx) : Option KeyIx :=
  if (s.reg x).toNat < Config.keyTestBound then some (Fin.ofNat 16 (s.reg x).toNat) else none

end Sys2Proof.Machine
end

