-- ==== Sys2Proof/Machine/Control.lean ====
section
/-! DEFINITION. The meanings of the control transfer instructions (41_control_flow.md). In each the state is the one after
the advance of `PC` (40_sequencer.md R82). -/

namespace Sys2Proof.Machine

/-- `00EE` (R90): pop the stack into `PC`; `StackUnderflow(0x00EE)` when it is empty (60_exceptions.md R174). -/
def exec00EE (s : State) : Host.Outcome State Fault Refusal :=
  match s.stack with
  | [] => .next (abandon .stackUnderflow 0x00EE s)
  | top :: rest => .next ((s.setStack rest).setPc top)

/-- `1NNN` (R91). -/
def exec1NNN (nnn : Addr12) (s : State) : Host.Outcome State Fault Refusal :=
  .next (s.setPc (immAddr nnn))

/-- `2NNN` (R92): the `PC` pushed is the advanced one. -/
def exec2NNN (nnn : Addr12) (s : State) : Host.Outcome State Fault Refusal :=
  .next ((s.push s.pc).setPc (immAddr nnn))

/-- `3XNN` (R93). -/
def exec3XNN (x : RegIx) (nn : Byte) (s : State) : Host.Outcome State Fault Refusal :=
  .next (s.skipIf (s.reg x == nn))

/-- `4XNN` (R94). -/
def exec4XNN (x : RegIx) (nn : Byte) (s : State) : Host.Outcome State Fault Refusal :=
  .next (s.skipIf (s.reg x != nn))

/-- `5XY0` (R95). -/
def exec5XY0 (x y : RegIx) (s : State) : Host.Outcome State Fault Refusal :=
  .next (s.skipIf (s.reg x == s.reg y))

/-- `9XY0` (R96). -/
def exec9XY0 (x y : RegIx) (s : State) : Host.Outcome State Fault Refusal :=
  .next (s.skipIf (s.reg x != s.reg y))

/-- `BNNN` (R97): the sum is not reduced modulo 4096. -/
def execBNNN (nnn : Addr12) (s : State) : Host.Outcome State Fault Refusal :=
  .next (s.setPc (immAddr nnn + s.jumpOffset nnn))

end Sys2Proof.Machine
end

