-- ==== Sys2Proof/Machine/Display.lean ====
section
/-! DEFINITION. The meanings of the display instructions (44_display.md). -/

namespace Sys2Proof.Machine

/-- `00E0` (R130): `redraw_pending` is set even if the screen was clear (D13, log 26). -/
def exec00E0 (s : State) : Host.Outcome State Fault Refusal :=
  .next ((s.setFb Framebuffer.clear).setRedraw true)

/-- The effect of `DXYN` once its `N` bytes are read (R132): the coordinates are those of before the write of `VF` (R12). -/
def State.draw (s : State) (x y : RegIx) (bytes : List Byte) : State :=
  let r := drawSprite s.fb (s.originX x) (s.originY y) bytes
  ((s.setFb r.1).setReg regF (flagByte r.2)).setRedraw true

/-- `DXYN` (R132): all `N` bytes are read, those of clipped rows too; `N` = 0 reads nothing and cannot fault. -/
def execDXYN (x y : RegIx) (n : Nat) (s : State) : Host.Outcome State Fault Refusal :=
  afterAccess s (memRead s.i.toNat n s) fun bytes => s.draw x y bytes

end Sys2Proof.Machine
end

