-- ==== Sys2Proof/Machine/IndexMemory.lean ====
section
/-! DEFINITION. The meanings of the index register and memory instructions (43_index_memory.md). -/

namespace Sys2Proof.Machine

/-- `ANNN` (R120). -/
def execANNN (nnn : Addr12) (s : State) : Host.Outcome State Fault Refusal :=
  .next (s.setIndex (immAddr nnn))

/-- `FX1E` (R121): the addend is read first; `VF` is written, with 1, only in modern mode and only when the new `I` is
0x1000 or more. -/
def execFX1E (x : RegIx) (s : State) : Host.Outcome State Fault Refusal :=
  let w := s.i + s.regExt x
  .next (if !s.legacy && indexOverflow w then (s.setIndex w).setReg regF (flagByte true) else s.setIndex w)

/-- `FX29` (R122). It reads no memory. -/
def execFX29 (x : RegIx) (s : State) : Host.Outcome State Fault Refusal :=
  .next (s.setIndex (glyphAddr (s.reg x)))

/-- `FX33` (R123): `I` is not changed in either mode. -/
def execFX33 (x : RegIx) (s : State) : Host.Outcome State Fault Refusal :=
  afterAccess s (memWrite s.i.toNat (bcdDigits (s.reg x)) s) fun t => t

/-- `FX55` (R124). -/
def execFX55 (x : RegIx) (s : State) : Host.Outcome State Fault Refusal :=
  afterAccess s (memWrite s.i.toNat (s.regRun x) s) fun t => t.advanceIndex x

/-- `FX65` (R125). -/
def execFX65 (x : RegIx) (s : State) : Host.Outcome State Fault Refusal :=
  afterAccess s (memRead s.i.toNat (x.val + 1) s) fun bytes => (s.loadRegs 0 bytes).advanceIndex x

end Sys2Proof.Machine
end

