-- ==== Sys2Proof/Machine/KeypadTimers.lean ====
section
/-! DEFINITION. The meanings of the keypad and timer instructions (45_keypad_timers.md). -/

namespace Sys2Proof.Machine

/-- `EX9E` (R140). -/
def execEX9E (x : RegIx) (s : State) : Host.Outcome State Fault Refusal :=
  match s.testedKey x with
  | some k => .next (s.skipIf (s.key k))
  | none => .next s

/-- `EXA1` (R141): not the complement of `EX9E` for `VX` of 0xF or more, where neither skips. -/
def execEXA1 (x : RegIx) (s : State) : Host.Outcome State Fault Refusal :=
  match s.testedKey x with
  | some k => .next (s.skipIf (!s.key k))
  | none => .next s

/-- `FX0A` (R142): with no key pressed `PC` goes back to this instruction; else `VX` is the least pressed key. -/
def execFX0A (x : RegIx) (s : State) : Host.Outcome State Fault Refusal :=
  match s.leastKey with
  | none => .next s.rewind
  | some k => .next (s.setReg x (BitVec.ofNat 8 k.val))

/-- `FX07` (R143). -/
def execFX07 (x : RegIx) (s : State) : Host.Outcome State Fault Refusal :=
  .next (s.setReg x s.dt)

/-- `FX15` (R144). -/
def execFX15 (x : RegIx) (s : State) : Host.Outcome State Fault Refusal :=
  .next (s.setDelay (s.reg x))

/-- `FX18` (R145). -/
def execFX18 (x : RegIx) (s : State) : Host.Outcome State Fault Refusal :=
  .next (s.setSound (s.reg x))

end Sys2Proof.Machine
end

