-- ==== Sys2Proof/Machine/Scheduler.lean ====
section
/-! DEFINITION. The scheduler (46_scheduler.md): the latency table, the two gates, the frame tick, the host's ports, and the
loader (70_reset_and_hazards.md). -/

namespace Sys2Proof.Machine

/-- `LAT` (R156): by tag, and for `DXYN`, `FX55` and `FX65` by operand size. The numbers are open (log 5). -/
def latency : Instr → Nat
  | .op00E0 => Config.latFixed .t00E0
  | .op00EE => Config.latFixed .t00EE
  | .op1NNN _ => Config.latFixed .t1NNN
  | .op2NNN _ => Config.latFixed .t2NNN
  | .op3XNN _ _ => Config.latFixed .t3XNN
  | .op4XNN _ _ => Config.latFixed .t4XNN
  | .op5XY0 _ _ => Config.latFixed .t5XY0
  | .op6XNN _ _ => Config.latFixed .t6XNN
  | .op7XNN _ _ => Config.latFixed .t7XNN
  | .op8XY0 _ _ => Config.latFixed .t8XY0
  | .op8XY1 _ _ => Config.latFixed .t8XY1
  | .op8XY2 _ _ => Config.latFixed .t8XY2
  | .op8XY3 _ _ => Config.latFixed .t8XY3
  | .op8XY4 _ _ => Config.latFixed .t8XY4
  | .op8XY5 _ _ => Config.latFixed .t8XY5
  | .op8XY6 _ _ => Config.latFixed .t8XY6
  | .op8XY7 _ _ => Config.latFixed .t8XY7
  | .op8XYE _ _ => Config.latFixed .t8XYE
  | .op9XY0 _ _ => Config.latFixed .t9XY0
  | .opANNN _ => Config.latFixed .tANNN
  | .opBNNN _ => Config.latFixed .tBNNN
  | .opCXNN _ _ => Config.latFixed .tCXNN
  | .opDXYN _ _ n => Config.latDraw n
  | .opEX9E _ => Config.latFixed .tEX9E
  | .opEXA1 _ => Config.latFixed .tEXA1
  | .opFX07 _ => Config.latFixed .tFX07
  | .opFX0A _ => Config.latFixed .tFX0A
  | .opFX15 _ => Config.latFixed .tFX15
  | .opFX18 _ => Config.latFixed .tFX18
  | .opFX1E _ => Config.latFixed .tFX1E
  | .opFX29 _ => Config.latFixed .tFX29
  | .opFX33 _ => Config.latFixed .tFX33
  | .opFX55 x => Config.latStore (x.val + 1)
  | .opFX65 x => Config.latLoad (x.val + 1)

/-- The step gate at time `t` (R152). -/
def stepGate (t : Nat) (s : State) : Bool := !s.halted && !s.redrawPending && decide (s.nextCycleDue ≤ t)

/-- The frame gate at time `t` (R153): it depends neither on `halted` nor on `redraw_pending`. -/
def frameGate (t : Nat) (s : State) : Bool := decide (s.nextFrameDue ≤ t)

/-- When an operation due at `due` is performed: `late` microseconds after the earliest moment that is neither before now
(R151) nor before it is due (R152 (c), R153). Every moment the gates allow has this form (log 2). -/
def performedAt (now due late : Nat) : Nat := max now due + late

/-- A timer's tick: down by 1 while nonzero (R160, R161). -/
def tickTimer (b : Byte) : Byte := if b = 0 then 0 else b - 1

/-- `frame_tick()` (R160): both timers, `redraw_pending`, `next_frame_due`, `present(fb)`. -/
def frameTick (s : State) : State :=
  { s with
    dt := tickTimer s.dt
    st := tickTimer s.st
    redrawPending := false
    nextFrameDue := s.nextFrameDue + Config.framePeriodUs
    presented := some s.fb }

/-- `key_event(k, pressed)` (R163): always enabled. -/
def keyEvent (k : KeyIx) (pressed : Bool) (s : State) : State := s.setKey k pressed

/-- `read_fb()` (R150, R162): the presentation layer is given the framebuffer as it stands. -/
def readFb (s : State) : State := s.present

/-- The host's next operation: the head of the agenda, else a free one (R155, log 1). -/
def State.nextTurn (s : State) : HostTurn :=
  match s.agenda with
  | t :: _ => t
  | [] => Config.hostTurn s.turnsTaken

/-- That operation is taken. -/
def State.takeTurn (s : State) : State := { s with agenda := s.agenda.tail, turnsTaken := s.turnsTaken + 1 }

/-- `construct(prog, legacy)` (70_reset_and_hazards.md R190), the only reset (R191): the program from 0x200 and the mode
flag; a program of more than `PROG_MAX` bytes is rejected (R193, log 15). -/
def construct (prog : List Byte) (legacy : Bool) : Host.Outcome State Fault Refusal :=
  if Config.progMax < prog.length then .fault (.programTooLong prog.length)
  else .next { State.reset with mem := State.reset.mem.writeAll Config.progBase prog, legacy := legacy }

/-- The host decides its next operations: they come before those already decided (log 1). -/
def State.withAgenda (s : State) (turns : List HostTurn) : State := { s with agenda := turns ++ s.agenda }

end Sys2Proof.Machine
end

