-- ==== Sys2Proof/Machine/Sequencer.lean ====
section
/-! DEFINITION. The sequencer's operation `step_cycle` (40_sequencer.md) and the performance of one host operation. -/

namespace Sys2Proof.Machine

/-- The last action of a step (R86): a step that did not fault charges the latency of its instruction; one that did
charges nothing (R85, D31). -/
def charge (i : Instr) (r : Host.Outcome State Fault Refusal) : Host.Outcome State Fault Refusal :=
  match r with
  | .next s => .next (if s.halted then s else s.chargeCycle (latency i))
  | .fault f => .fault f
  | .refused f => .refused f

/-- `step_cycle` (R80), its gate being open: fetch, advance, decode, execute, charge. `FetchOutOfRange` comes before
`IllegalOpcode` and that before the execute phase (60_exceptions.md R179). A fault before the execute phase leaves the
state as it was (R85), so `PC` is advanced only for that phase. -/
def stepCycle (s : State) : Host.Outcome State Fault Refusal :=
  match fetch s with
  | .error bad => .next (raise .fetchOutOfRange bad s)
  | .ok w =>
    match decodeWord w with
    | .error _ => .next (raise .illegalOpcode w s)
    | .ok i => charge i (exec i s.advance)

/-- One operation of the host. A `step_cycle` is performed only while the core is neither halted nor waiting for a redraw
(R152 (a), (b)); asked for otherwise, it is not performed and nothing happens (log 12). A `frame_tick` is performed in
the halted state too (R153, R166). -/
def perform (t : HostTurn) (s : State) : Host.Outcome State Fault Refusal :=
  match t with
  | .stepCycle late rnd =>
    if s.halted || s.redrawPending then .next s
    else stepCycle ((s.setNow (performedAt s.now s.nextCycleDue late)).setRnd rnd)
  | .frameTick late => .next (frameTick (s.setNow (performedAt s.now s.nextFrameDue late)))
  | .keyEvent late k pressed => .next (keyEvent k pressed (s.setNow (s.now + late)))
  | .readFb late => .next (readFb (s.setNow (s.now + late)))

end Sys2Proof.Machine
end

