-- ==== Sys2Proof/Machine/Step.lean ====
section
/-! DEFINITION. One step of the model: one operation of one agent (00_scope.md R4, 46_scheduler.md R150). -/

namespace Sys2Proof.Machine

/-- One step: the host's next operation (log 1) is taken and performed. -/
def step (s : State) : Host.Outcome State Fault Refusal := perform s.nextTurn s.takeTurn

/-- `s` with an instruction word stored where the next fetch finds it, and the sequencer's turn next: `PC` is kept where
an instruction can be fetched from it (else 0x200), the gate of R152 is opened, and a `step_cycle` with a free `rnd`
heads the agenda (log 14). -/
def State.withFetchWord (s : State) (nbits w : Nat) : State :=
  let pc : Word := if s.pc.toNat ≤ 0xFFE then s.pc else 0x0200
  { s with
    pc := pc
    mem := s.mem.writeAll pc.toNat [highByte (tableWord nbits w), lowByte (tableWord nbits w)]
    halted := false
    haltCause := .none
    haltInfo := 0x0000
    redrawPending := false
    agenda := .stepCycle 0 (Config.hostRnd s.turnsTaken) :: s.agenda }

end Sys2Proof.Machine
end

