-- ==== Sys2Proof/Safety.lean ====
section
/-! DEFINITION. What claims about a run are said in: the invariants of the machine, what a program can see, and which
fields an operation leaves alone. -/

namespace Sys2Proof.Machine

/-- Memory is in its canonical form. -/
def MemoryCanonical (s : State) : Prop := s.mem.wf

/-- Every return address on the stack is "a 16-bit value between 0x0002 and 0x1000" (41_control_flow.md R90). -/
def ReturnAddressesInRange (s : State) : Prop := ∀ a ∈ s.stack, 0x0002 ≤ a.toNat ∧ a.toNat ≤ 0x1000

/-- The number of bytes of data memory an instruction accesses from `I` (R176: N, 3, X+1, X+1). -/
def accessCount : Instr → Nat
  | .opDXYN _ _ n => n
  | .opFX33 _ => 3
  | .opFX55 x => x.val + 1
  | .opFX65 x => x.val + 1
  | _ => 0

/-- What the fault registers say is true of the rest of the state (60_exceptions.md R171, R172): without a halt they are
as after construction, and in the halted state the cause's condition holds of the instruction at `PC`. -/
def HaltRecordTrue (s : State) : Prop :=
  match s.haltCause with
  | .none => s.halted = false ∧ s.haltInfo = 0
  | .illegalOpcode => s.halted = true ∧ fetch s = .ok s.haltInfo ∧ ∃ r, decodeWord s.haltInfo = .error r
  | .stackUnderflow => s.halted = true ∧ fetch s = .ok 0x00EE ∧ s.haltInfo = 0x00EE ∧ s.stack = []
  | .fetchOutOfRange => s.halted = true ∧ 0xFFE < s.pc.toNat ∧ s.haltInfo = s.pc
  | .dataOutOfRange =>
    s.halted = true ∧ s.haltInfo.toNat = max s.i.toNat 0x1000 ∧
      ∃ w i, fetch s = .ok w ∧ decodeWord w = .ok i ∧ 0 < accessCount i ∧ 0xFFF < s.i.toNat + accessCount i - 1

/-- The host's next operation is a `step_cycle` with input `rnd`, and neither the halted state nor a pending redraw keeps
the sequencer from it (46_scheduler.md R152). -/
def SequencerTurn (s : State) (late : Nat) (rnd : Byte) : Prop :=
  s.nextTurn = .stepCycle late rnd ∧ s.halted = false ∧ s.redrawPending = false

/-- The state in which a `step_cycle` asked for in `s` finds the core: the turn taken, the time come, the input there. -/
def State.atCycle (s : State) (late : Nat) (rnd : Byte) : State :=
  ((s.takeTurn).setNow (performedAt s.now s.nextCycleDue late)).setRnd rnd

/-! ### Runs and fairness (46_scheduler.md R165, 70_reset_and_hazards.md R203) -/

/-- An infinite run: operation `n` of the host is `turns n`, performed in the state `run n`. A run of `step` is one, with
`turns n` the `nextTurn` of `run n`; but `turns` may be any host (R155, log 1). -/
def HostRun (turns : Nat → HostTurn) (run : Nat → State) : Prop :=
  ∀ n, perform (turns n) (run n).takeTurn = .next (run (n + 1))

/-- The operation is a `frame_tick`. -/
def IsTick (turn : HostTurn) : Prop := ∃ late, turn = .frameTick late

/-- The operation is a `step_cycle` that is performed in `s`: neither the halted state nor a pending redraw keeps the
sequencer from it (R152). -/
def IsCycle (turn : HostTurn) (s : State) : Prop :=
  (∃ late rnd, turn = .stepCycle late rnd) ∧ s.halted = false ∧ s.redrawPending = false

/-- The weak fairness of R165, with no bound on any delay. It, and not a positive `LAT`, is what this model states of the
two remedies R203 names for an instruction of zero latency (log 16). -/
structure FairRun (turns : Nat → HostTurn) (run : Nat → State) : Prop where
  /-- The operations are performed one after another. -/
  isRun : HostRun turns run
  /-- "`now` grows without bound". -/
  timeGrows : ∀ bound, ∃ n, bound ≤ (run n).now
  /-- "a `frame_tick` that stays enabled is eventually performed". -/
  tickFair : ∀ n, (∀ m, n ≤ m → frameGate (run m).now (run m) = true) → ∃ m, n ≤ m ∧ IsTick (turns m)
  /-- "a `step_cycle` that stays enabled is eventually performed". -/
  cycleFair : ∀ n, (∀ m, n ≤ m → stepGate (run m).now (run m) = true) → ∃ m, n ≤ m ∧ IsCycle (turns m) (run m)

/-- `t` is `s` but for the time and the due times, which no instruction can read (46_scheduler.md R157). -/
def SameButTime (s t : State) : Prop :=
  t = { s with now := t.now, nextCycleDue := t.nextCycleDue, nextFrameDue := t.nextFrameDue }

/-- Two outcomes with the same state up to the time and the due times. -/
def SameOutcomeButTime : Host.Outcome State Fault Refusal → Host.Outcome State Fault Refusal → Prop
  | .next s, .next t => SameButTime s t
  | .fault f, .fault g => f = g
  | .refused f, .refused g => f = g
  | _, _ => False

/-- `t` is `s` but for the sound timer. -/
def SameButSound (s t : State) : Prop := t = { s with st := t.st }

/-- The instructions that write `VF` as a flag, whatever their `X` (10_state.md R11). -/
def writesFlag : Tag → Bool
  | .t8XY4 | .t8XY5 | .t8XY6 | .t8XY7 | .t8XYE | .tDXYN | .tFX1E => true
  | _ => false

/-- The general registers an instruction may write: its destination, `VF` for the flag writers, the run of `FX65` (10_state.md
R11, R33). -/
def writesReg : Instr → RegIx → Bool
  | .op6XNN x _, r | .op7XNN x _, r | .op8XY0 x _, r | .op8XY1 x _, r | .op8XY2 x _, r | .op8XY3 x _, r
  | .opCXNN x _, r | .opFX07 x, r | .opFX0A x, r => r == x
  | .op8XY4 x _, r | .op8XY5 x _, r | .op8XY6 x _, r | .op8XY7 x _, r | .op8XYE x _, r => r == x || r == regF
  | .opDXYN _ _ _, r | .opFX1E _, r => r == regF
  | .opFX65 x, r => decide (r ≤ x)
  | .op00E0, _ | .op00EE, _ | .op1NNN _, _ | .op2NNN _, _ | .op3XNN _ _, _ | .op4XNN _ _, _ | .op5XY0 _ _, _
  | .op9XY0 _ _, _ | .opANNN _, _ | .opBNNN _, _ | .opEX9E _, _ | .opEXA1 _, _ | .opFX15 _, _ | .opFX18 _, _
  | .opFX29 _, _ | .opFX33 _, _ | .opFX55 _, _ => false

/-- The four mode-dependent instruction families (00_scope.md R2). -/
def modeDependent : Tag → Bool
  | .t8XY6 | .t8XYE | .tFX1E | .tBNNN | .tFX55 | .tFX65 => true
  | _ => false

/-- The machine's outcome with its state's mode replaced. -/
def Outcome.withMode (b : Bool) : Host.Outcome State Fault Refusal → Host.Outcome State Fault Refusal
  | .next s => .next { s with legacy := b }
  | .fault f => .fault f
  | .refused f => .refused f

/-- Bit (x, y) of a sprite of bytes placed at (`x0`, `y0`): row `y - y0`, column `x - x0` from bit 7 down (44_display.md
R131). It is off outside the sprite. -/
def spriteBit (bytes : List Byte) (x0 y0 x y : Nat) : Bool :=
  decide (x0 ≤ x ∧ x < x0 + 8 ∧ y0 ≤ y) &&
    (match bytes[y - y0]? with
     | some b => b.getMsbD (x - x0)
     | none => false)

end Sys2Proof.Machine
end

