-- ==== Sys2Proof/Certificates/Slice0/Obligations.lean ====
section
/-! DEFINITION. The statements for the provers. In a statement about `exec` the state `s` is the one after the advance of
`PC` (40_sequencer.md R82), so `s.pc` is the address of the next instruction and `s.pc - 2` that of the executing one.
`t = { s with f := t.f, … }` is the frame: every field but those named is as in `s`. -/

open Sys2Proof Sys2Proof.Machine

/-! ### Construction (10_state.md section 6, 70_reset_and_hazards.md) -/

/-- The state after reset, field by field, and every register, byte, pixel and key read one by one. `PC`, the place of the
font and the empty program aside, the values are the spec's decisions D11, D14 and D4 (log 9); that reset is the modern
core at time 0 with the empty program is the model's choice (log 7, log 8). -/
def Obligations.ResetIsConstructedCore : Prop :=
  construct [] false = .next State.reset ∧
  State.reset.pc = 0x0200 ∧ State.reset.i = 0 ∧ State.reset.stack = [] ∧ State.reset.dt = 0 ∧ State.reset.st = 0 ∧
  State.reset.redrawPending = false ∧ State.reset.halted = false ∧ State.reset.haltCause = .none ∧
  State.reset.haltInfo = 0 ∧ State.reset.nextCycleDue = Config.t0 ∧
  State.reset.nextFrameDue = Config.t0 + Config.framePeriodUs ∧
  (∀ r, State.reset.reg r = 0) ∧ (∀ k, State.reset.key k = false) ∧ (∀ x y, State.reset.fb.pixel x y = false) ∧
  (∀ j : Fin 80, State.reset.mem.read (0x050 + j.val) = Config.font j) ∧
  (∀ a, a < 0x050 ∨ 0x0A0 ≤ a → State.reset.mem.read a = 0)

/-- A program of at most 3584 bytes stands in memory from 0x200, in order, every other byte as at reset; a longer program
is rejected. The values at reset are D11's (log 9), the limit is D20's (log 15). -/
def Obligations.ConstructLoadsProgram : Prop :=
  ∀ (prog : List Byte) (legacy : Bool),
    (prog.length ≤ 3584 →
      ∃ t, construct prog legacy = .next t ∧ t = { State.reset with mem := t.mem, legacy := legacy } ∧
        (∀ (j : Nat) (h : j < prog.length), t.mem.read (0x200 + j) = prog[j]) ∧
        (∀ a, a < 0x200 ∨ 0x200 + prog.length ≤ a → t.mem.read a = State.reset.mem.read a)) ∧
    (3584 < prog.length → construct prog legacy = .fault (.programTooLong prog.length))

/-- The state after reset meets the invariants that every step keeps. -/
def Obligations.ResetMeetsInvariants : Prop :=
  MemoryCanonical State.reset ∧ ReturnAddressesInRange State.reset ∧ HaltRecordTrue State.reset

/-! ### The decoder (30_encoding.md) -/

/-- Words of 95_test_vectors.md sections 2 and 4 and what they decode to. -/
def Obligations.WordsOfSpecDecode : Prop :=
  decode [0x60, 0x08] = .ok (.op6XNN 0 0x08, []) ∧ decode [0xA0, 0x50] = .ok (.opANNN 0x050, []) ∧
  decode [0xD0, 0x15] = .ok (.opDXYN 0 1 5, []) ∧ decode [0x8A, 0xB4] = .ok (.op8XY4 0xA 0xB, []) ∧
  decode [0xFE, 0x65] = .ok (.opFX65 0xE, []) ∧ decode [0xB2, 0xF0] = .ok (.opBNNN 0x2F0, []) ∧
  decode [0x12, 0x34] = .ok (.op1NNN 0x234, []) ∧ decode [0x5A, 0xB7] = .ok (.op5XY0 0xA 0xB, []) ∧
  decode [0xEF, 0xA1] = .ok (.opEXA1 0xF, []) ∧ decode [0x00, 0xE0] = .ok (.op00E0, []) ∧
  decode [0x01, 0xE0] = .error (.illegal0NNN 0x01E0) ∧ decode [0x8A, 0xB8] = .error (.illegal8XYn 0x8AB8) ∧
  decode [0xEF, 0x9F] = .error (.illegalEXnn 0xEF9F) ∧ decode [0xFF, 0xFF] = .error (.illegalFXnn 0xFFFF)

/-- The opcode map: a word decodes to the instruction with tag `t` if and only if `w & mask = match` of its row. So no two
rows accept one word. -/
def Obligations.DecoderFollowsOpcodeMap : Prop :=
  ∀ (w : Word) (t : Tag), (∃ i, decodeWord w = .ok i ∧ i.tag = t) ↔ w &&& t.maskWord = t.matchWord

/-- The words that are no instruction are exactly those of the four groups of R69 (D1, D12; log 24, log 25). -/
def Obligations.IllegalWordsExactly : Prop :=
  ∀ w : Word, (∃ r, decodeWord w = .error r) ↔
    (fieldOp w = 0x0 ∧ fieldNNN w ≠ 0x0E0 ∧ fieldNNN w ≠ 0x0EE) ∨
    (fieldOp w = 0x8 ∧ fieldN w ∈ [0x8, 0x9, 0xA, 0xB, 0xC, 0xD, 0xF]) ∨
    (fieldOp w = 0xE ∧ fieldNN w ≠ 0x9E ∧ fieldNN w ≠ 0xA1) ∨
    (fieldOp w = 0xF ∧ fieldNN w ∉ [0x07, 0x0A, 0x15, 0x18, 0x1E, 0x29, 0x33, 0x55, 0x65])

/-- Decoding the encoding of a well-formed instruction gives it back, every operand at every value. -/
def Obligations.DecodeEncodeRoundTrip : Prop :=
  ∀ i : Instr, i.wf = true → decode (encode i) = .ok (i, [])

/-- The other way: an instruction a word decodes to is well formed, and its encoding is the word, with the ignored field
`N` of `5XYn` and `9XYn` cleared (D29, log 24). -/
def Obligations.EncodeDecodeCanonical : Prop :=
  ∀ (w : Word) (i : Instr), decodeWord w = .ok i →
    i.wf = true ∧ encodeWord i = if fieldOp w = 0x5 ∨ fieldOp w = 0x9 then w &&& 0xFFF0 else w

/-! ### The step (40_sequencer.md) -/

/-- The fetch is big-endian, at an odd address as at an even one, and reads the two bytes at `PC` (D23, log 27). -/
def Obligations.FetchIsBigEndian : Prop :=
  ∀ s : State, s.pc.toNat ≤ 0xFFE →
    ∃ w, fetch s = .ok w ∧
      w.toNat = 256 * (s.mem.read s.pc.toNat).toNat + (s.mem.read (s.pc.toNat + 1)).toNat

/-- When the sequencer's turn has come and the bytes at `PC` decode to `i`, the step is `i` executed in the state with
`PC` advanced by 2, and its latency charged if it did not halt the core. What the step adds around the instruction: the
turn taken, the time come, the input `rnd` (log 1, log 2, log 3). -/
def Obligations.StepRunsDecodedInstruction : Prop :=
  ∀ (s : State) (late : Nat) (rnd : Byte) (i : Instr),
    SequencerTurn s late rnd → s.pc.toNat ≤ 0xFFE →
    decode [s.mem.read s.pc.toNat, s.mem.read (s.pc.toNat + 1)] = .ok (i, []) →
    ∃ t, exec i { s with
          pc := s.pc + 2, agenda := s.agenda.tail, turnsTaken := s.turnsTaken + 1,
          now := max s.now s.nextCycleDue + late, rnd := rnd } = .next t ∧
      step s = .next (if t.halted then t else { t with nextCycleDue := t.nextCycleDue + latency i })

/-- A fetch with a byte outside memory halts the core with the value of `PC`, and changes nothing else (D2, D4; log 11,
log 25). -/
def Obligations.FetchOutOfRangeHalts : Prop :=
  ∀ (s : State) (late : Nat) (rnd : Byte), SequencerTurn s late rnd → 0xFFE < s.pc.toNat →
    step s = .next { s.atCycle late rnd with halted := true, haltCause := .fetchOutOfRange, haltInfo := s.pc }

/-- A word that is no instruction halts the core with the word, and changes nothing else (D1, D4; log 11, log 25). -/
def Obligations.IllegalOpcodeHalts : Prop :=
  ∀ (s : State) (late : Nat) (rnd : Byte) (w : Word) (r : DecodeReject),
    SequencerTurn s late rnd → fetch s = .ok w → decodeWord w = .error r →
    step s = .next { s.atCycle late rnd with halted := true, haltCause := .illegalOpcode, haltInfo := w }

/-- Faults are precise: a step that halts the core changes nothing else, `PC` is the address of the faulting instruction
and no latency is charged (D4, log 11). -/
def Obligations.FaultsArePrecise : Prop :=
  ∀ (s t : State) (late : Nat) (rnd : Byte), SequencerTurn s late rnd → step s = .next t → t.halted = true →
    t.haltCause ≠ .none ∧
    t = { s.atCycle late rnd with halted := true, haltCause := t.haltCause, haltInfo := t.haltInfo }

/-- A latency depends on the tag, and for `DXYN` on the row count and for `FX55` and `FX65` on the register count (D16,
log 5). -/
def Obligations.LatencyByTagAndSize : Prop :=
  ∀ i j : Instr, i.tag = j.tag → (i.tag ∈ [Tag.tDXYN, Tag.tFX55, Tag.tFX65] → accessCount i = accessCount j) →
    latency i = latency j

/-- Every step of every state answers a next state, whichever operation the host performs: no instruction ends a run, a
fault of the core is a next state (D4, log 11), and so is a `step_cycle` asked for at a closed gate (log 12); that a step is
one operation of the host is the model's choice (log 1). -/
def Obligations.EveryStepAnswersNext : Prop := ∀ s : State, ∃ t, step s = .next t

/-! ### Control transfer (41_control_flow.md) -/

/-- `1NNN`: "PC = NNN", and nothing else changes. -/
def Obligations.JumpInstruction : Prop :=
  (∀ w : Word, fieldOp w = 0x1 → decodeWord w = .ok (.op1NNN (fieldNNN w))) ∧
  ∀ (nnn : Addr12) (s : State),
    ∃ t, exec (.op1NNN nnn) s = .next t ∧ t.pc.toNat = nnn.toNat ∧ t = { s with pc := t.pc }

/-- `2NNN`: "push PC, PC = NNN", where the `PC` pushed is the advanced one; it succeeds at every depth. -/
def Obligations.CallInstruction : Prop :=
  (∀ w : Word, fieldOp w = 0x2 → decodeWord w = .ok (.op2NNN (fieldNNN w))) ∧
  ∀ (nnn : Addr12) (s : State),
    ∃ t, exec (.op2NNN nnn) s = .next t ∧ t.pc.toNat = nnn.toNat ∧ t.stack = s.pc :: s.stack ∧
      t = { s with pc := t.pc, stack := t.stack }

/-- `00EE`: the top of the stack is popped into `PC`. -/
def Obligations.ReturnPopsStack : Prop :=
  ∀ (s : State) (top : Word) (rest : List Word), s.stack = top :: rest →
    exec .op00EE s = .next { s with pc := top, stack := rest }

/-- `00EE` on an empty stack halts the core with `StackUnderflow(0x00EE)`, `PC` at the `00EE` (D3, D4; log 11, log 25). -/
def Obligations.ReturnOnEmptyStackHalts : Prop :=
  ∀ s : State, s.stack = [] →
    exec .op00EE s =
      .next { s with pc := s.pc - 2, halted := true, haltCause := .stackUnderflow, haltInfo := 0x00EE }

/-- `BNNN`: `NNN` plus `V0` in legacy mode, plus `VX` with X the top nibble of `NNN` in modern mode; not reduced. -/
def Obligations.JumpWithOffset : Prop :=
  (∀ w : Word, fieldOp w = 0xB → decodeWord w = .ok (.opBNNN (fieldNNN w)) ∧ topNibble (fieldNNN w) = fieldX w) ∧
  ∀ (nnn : Addr12) (s : State),
    ∃ t, exec (.opBNNN nnn) s = .next t ∧
      (s.legacy = true → t.pc.toNat = nnn.toNat + (s.reg 0).toNat) ∧
      (s.legacy = false → ∀ x : RegIx, x.val = nnn.toNat / 256 → t.pc.toNat = nnn.toNat + (s.reg x).toNat) ∧
      t = { s with pc := t.pc }

/-- `3XNN` and `4XNN`: 2 more on the advanced `PC` if the register equals, or differs from, the constant. -/
def Obligations.SkipOnConstant : Prop :=
  (∀ w : Word, fieldOp w = 0x3 → decodeWord w = .ok (.op3XNN (fieldX w) (fieldNN w))) ∧
  (∀ w : Word, fieldOp w = 0x4 → decodeWord w = .ok (.op4XNN (fieldX w) (fieldNN w))) ∧
  ∀ (x : RegIx) (nn : Byte) (s : State),
    exec (.op3XNN x nn) s = .next { s with pc := if s.reg x = nn then s.pc + 2 else s.pc } ∧
    exec (.op4XNN x nn) s = .next { s with pc := if s.reg x ≠ nn then s.pc + 2 else s.pc }

/-- `5XY0` and `9XY0`: 2 more on the advanced `PC` if the registers are equal, or differ; the field `N` is ignored
(D29, log 24). -/
def Obligations.SkipOnRegisters : Prop :=
  (∀ w : Word, fieldOp w = 0x5 → decodeWord w = .ok (.op5XY0 (fieldX w) (fieldY w))) ∧
  (∀ w : Word, fieldOp w = 0x9 → decodeWord w = .ok (.op9XY0 (fieldX w) (fieldY w))) ∧
  ∀ (x y : RegIx) (s : State),
    exec (.op5XY0 x y) s = .next { s with pc := if s.reg x = s.reg y then s.pc + 2 else s.pc } ∧
    exec (.op9XY0 x y) s = .next { s with pc := if s.reg x ≠ s.reg y then s.pc + 2 else s.pc }

/-! ### Constants, arithmetic, logic, shifts, random (42_alu.md) -/

/-- `6XNN` and `7XNN`: the register takes the constant, or the sum modulo 256; no other register changes, so no flag does
unless X is 0xF (D32, log 31). -/
def Obligations.LoadAndAddConstant : Prop :=
  (∀ w : Word, fieldOp w = 0x6 → decodeWord w = .ok (.op6XNN (fieldX w) (fieldNN w))) ∧
  (∀ w : Word, fieldOp w = 0x7 → decodeWord w = .ok (.op7XNN (fieldX w) (fieldNN w))) ∧
  ∀ (x : RegIx) (nn : Byte) (s : State),
    (∃ t, exec (.op6XNN x nn) s = .next t ∧ t.reg x = nn ∧
      (∀ r, r ≠ x → t.reg r = s.reg r) ∧ t = { s with v := t.v }) ∧
    (∃ t, exec (.op7XNN x nn) s = .next t ∧ (t.reg x).toNat = ((s.reg x).toNat + nn.toNat) % 256 ∧
      (∀ r, r ≠ x → t.reg r = s.reg r) ∧ t = { s with v := t.v })

/-- `8XY0` to `8XY3`: copy, OR, AND and XOR, bit by bit; no other register changes, so no flag does unless X is
0xF (which digit is which operation, G3, log 23; no flag, D32, log 31). -/
def Obligations.CopyAndLogic : Prop :=
  (∀ w : Word, fieldOp w = 0x8 →
    (fieldN w = 0x0 → decodeWord w = .ok (.op8XY0 (fieldX w) (fieldY w))) ∧
    (fieldN w = 0x1 → decodeWord w = .ok (.op8XY1 (fieldX w) (fieldY w))) ∧
    (fieldN w = 0x2 → decodeWord w = .ok (.op8XY2 (fieldX w) (fieldY w))) ∧
    (fieldN w = 0x3 → decodeWord w = .ok (.op8XY3 (fieldX w) (fieldY w)))) ∧
  ∀ (x y : RegIx) (s : State),
    (∃ t, exec (.op8XY0 x y) s = .next t ∧ t.reg x = s.reg y ∧
      (∀ r, r ≠ x → t.reg r = s.reg r) ∧ t = { s with v := t.v }) ∧
    (∃ t, exec (.op8XY1 x y) s = .next t ∧
      (∀ k, (t.reg x).getLsbD k = ((s.reg x).getLsbD k || (s.reg y).getLsbD k)) ∧
      (∀ r, r ≠ x → t.reg r = s.reg r) ∧ t = { s with v := t.v }) ∧
    (∃ t, exec (.op8XY2 x y) s = .next t ∧
      (∀ k, (t.reg x).getLsbD k = ((s.reg x).getLsbD k && (s.reg y).getLsbD k)) ∧
      (∀ r, r ≠ x → t.reg r = s.reg r) ∧ t = { s with v := t.v }) ∧
    (∃ t, exec (.op8XY3 x y) s = .next t ∧
      (∀ k, (t.reg x).getLsbD k = ((s.reg x).getLsbD k ^^ (s.reg y).getLsbD k)) ∧
      (∀ r, r ≠ x → t.reg r = s.reg r) ∧ t = { s with v := t.v })

/-- `8XY4`: the sum modulo 256, then the carry out in `VF`, which wins when X is 0xF (D7, D8; log 18, log 19). -/
def Obligations.AddWithCarryOut : Prop :=
  ∀ (x y : RegIx) (s : State),
    ∃ t, exec (.op8XY4 x y) s = .next t ∧
      (t.reg 15).toNat = (if 255 < (s.reg x).toNat + (s.reg y).toNat then 1 else 0) ∧
      (x ≠ 15 → (t.reg x).toNat = ((s.reg x).toNat + (s.reg y).toNat) % 256) ∧
      (∀ r, r ≠ x → r ≠ 15 → t.reg r = s.reg r) ∧ t = { s with v := t.v }

/-- `8XY5` and `8XY7`: the difference modulo 256, then in `VF` 1 for no borrow, equality included, and 0 for a borrow (D7,
D8; log 18, log 19). -/
def Obligations.SubtractWithNoBorrow : Prop :=
  ∀ (x y : RegIx) (s : State),
    (∃ t, exec (.op8XY5 x y) s = .next t ∧
      (t.reg 15).toNat = (if (s.reg y).toNat ≤ (s.reg x).toNat then 1 else 0) ∧
      (x ≠ 15 → (t.reg x).toNat = (256 + (s.reg x).toNat - (s.reg y).toNat) % 256) ∧
      (∀ r, r ≠ x → r ≠ 15 → t.reg r = s.reg r) ∧ t = { s with v := t.v }) ∧
    (∃ t, exec (.op8XY7 x y) s = .next t ∧
      (t.reg 15).toNat = (if (s.reg x).toNat ≤ (s.reg y).toNat then 1 else 0) ∧
      (x ≠ 15 → (t.reg x).toNat = (256 + (s.reg y).toNat - (s.reg x).toNat) % 256) ∧
      (∀ r, r ≠ x → r ≠ 15 → t.reg r = s.reg r) ∧ t = { s with v := t.v })

/-- `8XY6` and `8XYE`: the shifted value is `VY` in legacy mode and `VX` in modern mode; `VF` takes the bit shifted out,
last (D7, log 19). -/
def Obligations.ShiftByOne : Prop :=
  ∀ (x y : RegIx) (s : State) (a : Byte), a = (if s.legacy then s.reg y else s.reg x) →
    (∃ t, exec (.op8XY6 x y) s = .next t ∧ (t.reg 15).toNat = a.toNat % 2 ∧
      (x ≠ 15 → (t.reg x).toNat = a.toNat / 2) ∧
      (∀ r, r ≠ x → r ≠ 15 → t.reg r = s.reg r) ∧ t = { s with v := t.v }) ∧
    (∃ t, exec (.op8XYE x y) s = .next t ∧ (t.reg 15).toNat = a.toNat / 128 ∧
      (x ≠ 15 → (t.reg x).toNat = a.toNat * 2 % 256) ∧
      (∀ r, r ≠ x → r ≠ 15 → t.reg r = s.reg r) ∧ t = { s with v := t.v })

/-- `CXNN`: the input byte ANDed with `NN`, whatever the input is (D10, log 3). -/
def Obligations.RandomByteMasked : Prop :=
  ∀ (x : RegIx) (nn : Byte) (s : State),
    ∃ t, exec (.opCXNN x nn) s = .next t ∧
      (∀ k, (t.reg x).getLsbD k = (s.rnd.getLsbD k && nn.getLsbD k)) ∧
      (∀ r, r ≠ x → t.reg r = s.reg r) ∧ t = { s with v := t.v }

/-! ### Index and memory (43_index_memory.md) -/

/-- `ANNN`: "I = NNN", and nothing else changes. -/
def Obligations.LoadIndex : Prop :=
  (∀ w : Word, fieldOp w = 0xA → decodeWord w = .ok (.opANNN (fieldNNN w))) ∧
  ∀ (nnn : Addr12) (s : State),
    ∃ t, exec (.opANNN nnn) s = .next t ∧ t.i.toNat = nnn.toNat ∧ t = { s with i := t.i }

/-- `FX29`: `I` is 0x050 + 5 d for the low nibble d of the register (the stride 5 is derived by the spec). -/
def Obligations.PointAtGlyph : Prop :=
  ∀ (x : RegIx) (s : State),
    ∃ t, exec (.opFX29 x) s = .next t ∧ t.i.toNat = 0x050 + 5 * ((s.reg x).toNat % 16) ∧ t = { s with i := t.i }

/-- `FX1E`: the sum modulo 2^16; in modern mode `VF` becomes 1 if it is 0x1000 or more, and is untouched otherwise and in
legacy mode (D5, D6, D7; log 19, log 20). -/
def Obligations.AddToIndex : Prop :=
  ∀ (x : RegIx) (s : State),
    ∃ t, exec (.opFX1E x) s = .next t ∧ t.i.toNat = (s.i.toNat + (s.reg x).toNat) % 65536 ∧
      (s.legacy = false ∧ 0x1000 ≤ t.i.toNat → t.reg 15 = 1) ∧
      (s.legacy = true ∨ t.i.toNat < 0x1000 → t.reg 15 = s.reg 15) ∧
      (∀ r, r ≠ 15 → t.reg r = s.reg r) ∧ t = { s with v := t.v, i := t.i }

/-- `FX33` in range: the hundreds, tens and ones at I, I + 1 and I + 2, every other byte as before, `I` unchanged in both
modes (the range is D2's, log 25). -/
def Obligations.StoreDecimalDigits : Prop :=
  ∀ (x : RegIx) (s : State), s.i.toNat + 2 ≤ 0xFFF →
    ∃ t, exec (.opFX33 x) s = .next t ∧
      (t.mem.read s.i.toNat).toNat = (s.reg x).toNat / 100 ∧
      (t.mem.read (s.i.toNat + 1)).toNat = (s.reg x).toNat / 10 % 10 ∧
      (t.mem.read (s.i.toNat + 2)).toNat = (s.reg x).toNat % 10 ∧
      (∀ a, a < s.i.toNat ∨ s.i.toNat + 2 < a → t.mem.read a = s.mem.read a) ∧ t = { s with mem := t.mem }

/-- `FX55` in range: V0 to VX at I to I + X, every other byte as before; `I` advances by X + 1 in legacy mode only (the
range is D2's, log 25; the 16-bit `I` is D5's, log 20). -/
def Obligations.StoreRegisterRun : Prop :=
  ∀ (x : RegIx) (s : State), s.i.toNat + x.val ≤ 0xFFF →
    ∃ t, exec (.opFX55 x) s = .next t ∧
      (∀ r : RegIx, r ≤ x → t.mem.read (s.i.toNat + r.val) = s.reg r) ∧
      (∀ a, a < s.i.toNat ∨ s.i.toNat + x.val < a → t.mem.read a = s.mem.read a) ∧
      t.i.toNat = (if s.legacy then s.i.toNat + x.val + 1 else s.i.toNat) ∧ t = { s with mem := t.mem, i := t.i }

/-- `FX65` in range: V0 to VX take the bytes at I to I + X, the registers above VX and memory are as before; `I` advances
by X + 1 in legacy mode only (the range is D2's, log 25; the 16-bit `I` is D5's, log 20). -/
def Obligations.LoadRegisterRun : Prop :=
  ∀ (x : RegIx) (s : State), s.i.toNat + x.val ≤ 0xFFF →
    ∃ t, exec (.opFX65 x) s = .next t ∧
      (∀ r : RegIx, r ≤ x → t.reg r = s.mem.read (s.i.toNat + r.val)) ∧
      (∀ r : RegIx, x < r → t.reg r = s.reg r) ∧
      t.i.toNat = (if s.legacy then s.i.toNat + x.val + 1 else s.i.toNat) ∧ t = { s with v := t.v, i := t.i }

/-- `DXYN`, `FX33`, `FX55` and `FX65` out of range halt the core with the first address above 0xFFF and change nothing
else (D2, D4, D27; log 11, log 25). -/
def Obligations.DataOutOfRangeHalts : Prop :=
  ∀ (i : Instr) (s : State), 0 < accessCount i → 0xFFF < s.i.toNat + accessCount i - 1 →
    exec i s = .next { s with
      pc := s.pc - 2, halted := true, haltCause := .dataOutOfRange,
      haltInfo := if 0xFFF < s.i.toNat then s.i else 0x1000 }

/-! ### Display (44_display.md) -/

/-- `00E0`: every pixel off, and a redraw is pending even if none was on (D13, log 26). -/
def Obligations.ClearScreen : Prop :=
  ∀ s : State, ∃ t, exec .op00E0 s = .next t ∧ (∀ x y, t.fb.pixel x y = false) ∧ t.redrawPending = true ∧
    t = { s with fb := t.fb, redrawPending := t.redrawPending }

/-- `DXYN` in range, pixel by pixel: each pixel of the screen is XORed with the sprite's bit there, whose origin is reduced
into the screen and whose other pixels are dropped outside it; `VF` says whether a pixel that was on was turned off; a
redraw is pending (D2, D7, D13; log 19, log 25, log 26). -/
def Obligations.DrawSpriteXorsPixels : Prop :=
  ∀ (x y : RegIx) (n : Nat) (s : State) (bytes : List Byte) (x0 y0 : Nat),
    (n = 0 ∨ s.i.toNat + n - 1 ≤ 0xFFF) → bytes = (List.range n).map (fun j => s.mem.read (s.i.toNat + j)) →
    x0 = (s.reg x).toNat % 64 → y0 = (s.reg y).toNat % 32 →
    ∃ t, exec (.opDXYN x y n) s = .next t ∧
      (∀ px py, px < 64 → py < 32 → t.fb.pixel px py = (s.fb.pixel px py ^^ spriteBit bytes x0 y0 px py)) ∧
      (((∃ px py, px < 64 ∧ py < 32 ∧ s.fb.pixel px py = true ∧ spriteBit bytes x0 y0 px py = true) ∧
          t.reg 15 = 1) ∨
        ((∀ px py, px < 64 → py < 32 → s.fb.pixel px py = true → spriteBit bytes x0 y0 px py = false) ∧
          t.reg 15 = 0)) ∧
      t.redrawPending = true ∧ (∀ r, r ≠ 15 → t.reg r = s.reg r) ∧
      t = { s with fb := t.fb, v := t.v, redrawPending := t.redrawPending }

/-- The same sprite drawn twice at the same place gives the framebuffer back; if the first draw hit nothing and set a
pixel, the second one hits. -/
def Obligations.DrawTwiceRestores : Prop :=
  ∀ (x y : RegIx) (n : Nat) (s t u : State),
    exec (.opDXYN x y n) s = .next t → (n = 0 ∨ s.i.toNat + n ≤ 0x1000) →
    u.fb = t.fb → u.mem = s.mem → u.i = s.i →
    (u.reg x).toNat % 64 = (s.reg x).toNat % 64 → (u.reg y).toNat % 32 = (s.reg y).toNat % 32 →
    ∃ v, exec (.opDXYN x y n) u = .next v ∧ v.fb = s.fb ∧
      (t.reg 15 = 0 → t.fb ≠ s.fb → v.reg 15 = 1)

/-! ### Keypad and timers (45_keypad_timers.md) -/

/-- `EX9E` and `EXA1`: 2 more on the advanced `PC` if the key the whole register names is pressed, or not pressed, only
when the register is below 0xF (the bound taken literally, C4, log 22). -/
def Obligations.KeySkips : Prop :=
  (∀ w : Word, fieldOp w = 0xE →
    (fieldNN w = 0x9E → decodeWord w = .ok (.opEX9E (fieldX w))) ∧
    (fieldNN w = 0xA1 → decodeWord w = .ok (.opEXA1 (fieldX w)))) ∧
  ∀ (x : RegIx) (s : State),
    exec (.opEX9E x) s = .next { s with
      pc := if ∃ k : KeyIx, k.val = (s.reg x).toNat ∧ k.val < 0xF ∧ s.key k = true then s.pc + 2 else s.pc } ∧
    exec (.opEXA1 x) s = .next { s with
      pc := if ∃ k : KeyIx, k.val = (s.reg x).toNat ∧ k.val < 0xF ∧ s.key k = false then s.pc + 2 else s.pc }

/-- `FX0A`: with no key pressed `PC` goes back to it; else the register takes the least pressed key, 0xF included (D9,
log 21). -/
def Obligations.KeyWaitInstruction : Prop :=
  ∀ (x : RegIx) (s : State),
    ((∀ k, s.key k = false) → exec (.opFX0A x) s = .next { s with pc := s.pc - 2 }) ∧
    ∀ k : KeyIx, s.key k = true → (∀ j, j < k → s.key j = false) →
      ∃ t, exec (.opFX0A x) s = .next t ∧ (t.reg x).toNat = k.val ∧
        (∀ r, r ≠ x → t.reg r = s.reg r) ∧ t = { s with v := t.v }

/-- "With no key pressed the step changes nothing but `next_cycle_due`": the whole step of an `FX0A` that waits, what the
host's turn sets aside (log 1, log 2, log 3). -/
def Obligations.KeyWaitStepStaysPut : Prop :=
  ∀ (s : State) (late : Nat) (rnd : Byte) (w : Word) (x : RegIx),
    SequencerTurn s late rnd → fetch s = .ok w → decodeWord w = .ok (.opFX0A x) → (∀ k, s.key k = false) →
    step s = .next { s.atCycle late rnd with nextCycleDue := s.nextCycleDue + latency (.opFX0A x) }

/-- `FX07` reads the delay timer, `FX15` sets it and `FX18` sets the sound timer (which word does which is the spec's
general knowledge G3; log 23). -/
def Obligations.TimerInstructions : Prop :=
  ∀ (x : RegIx) (s : State),
    (∃ t, exec (.opFX07 x) s = .next t ∧ t.reg x = s.dt ∧
      (∀ r, r ≠ x → t.reg r = s.reg r) ∧ t = { s with v := t.v }) ∧
    exec (.opFX15 x) s = .next { s with dt := s.reg x } ∧
    exec (.opFX18 x) s = .next { s with st := s.reg x }

/-! ### Scheduler and ports (46_scheduler.md) -/

/-- A `step_cycle` asked for in the halted state or while a redraw is pending is not performed (log 12). -/
def Obligations.ClosedGateRunsNothing : Prop :=
  ∀ (s : State) (late : Nat) (rnd : Byte), s.nextTurn = .stepCycle late rnd →
    (s.halted = true ∨ s.redrawPending = true) →
    step s = .next { s with agenda := s.agenda.tail, turnsTaken := s.turnsTaken + 1 }

/-- The moments at which the model performs a `step_cycle` and a `frame_tick` are exactly those, not before now, at which
the gates are open; the step gate is closed in the halted state and while a redraw is pending, and the frame gate depends on
neither (log 2). -/
def Obligations.PerformedExactlyWhenGateOpen : Prop :=
  ∀ (s : State) (moment : Nat), s.now ≤ moment →
    (s.halted = false → s.redrawPending = false →
      (stepGate moment s = true ↔ ∃ late, performedAt s.now s.nextCycleDue late = moment)) ∧
    (s.halted = true ∨ s.redrawPending = true → stepGate moment s = false) ∧
    (frameGate moment s = true ↔ ∃ late, performedAt s.now s.nextFrameDue late = moment)

/-- `frame_tick`: both timers down by 1 while nonzero, the pending redraw cleared, the frame clock advanced by the period,
the framebuffer as it stands presented; nothing else changes, in the halted state too (D13, D18, D28; log 13, log 26,
log 29). -/
def Obligations.FrameTickEffect : Prop :=
  ∀ (s : State) (late : Nat), s.nextTurn = .frameTick late →
    ∃ t, step s = .next t ∧ t.dt.toNat = s.dt.toNat - 1 ∧ t.st.toNat = s.st.toNat - 1 ∧
      t = { s with
        dt := t.dt, st := t.st, redrawPending := false, nextFrameDue := s.nextFrameDue + Config.framePeriodUs,
        presented := some s.fb, now := max s.now s.nextFrameDue + late, agenda := s.agenda.tail,
        turnsTaken := s.turnsTaken + 1 }

/-- `key_event(k, pressed)` "performs `keys[k] <- pressed` and nothing else", always; the time and the host's turn aside. -/
def Obligations.KeyEventEffect : Prop :=
  ∀ (s : State) (late : Nat) (k : KeyIx) (pressed : Bool), s.nextTurn = .keyEvent late k pressed →
    ∃ t, step s = .next t ∧ t.key k = pressed ∧ (∀ j, j ≠ k → t.key j = s.key j) ∧
      t = { s with
        keys := t.keys, now := s.now + late, agenda := s.agenda.tail, turnsTaken := s.turnsTaken + 1 }

/-- `read_fb` gives the framebuffer as it stands and changes nothing of the core (log 13). -/
def Obligations.ReadFramebufferEffect : Prop :=
  ∀ (s : State) (late : Nat), s.nextTurn = .readFb late →
    step s = .next { s with
      presented := some s.fb, now := s.now + late, agenda := s.agenda.tail, turnsTaken := s.turnsTaken + 1 }

/-- After n frame ticks one after another each timer is max(0, start - n), and the frame clock has advanced n periods
(D28, log 29). -/
def Obligations.TimersCountTicks : Prop :=
  ∀ (n : Nat) (s : State) (rest : List HostTurn), s.agenda = List.replicate n (.frameTick 0) ++ rest →
    ∃ t, Host.Core.run core n s = .next t ∧ t.dt.toNat = s.dt.toNat - n ∧ t.st.toNat = s.st.toNat - n ∧
      t.nextFrameDue = s.nextFrameDue + n * Config.framePeriodUs ∧ t.pc = s.pc ∧ t.v = s.v ∧ t.fb = s.fb

/-! ### Invariants and whole-machine rules -/

/-- Every step keeps memory in its canonical form. -/
def Obligations.StepKeepsMemoryCanonical : Prop :=
  ∀ s t : State, MemoryCanonical s → step s = .next t → MemoryCanonical t

/-- Every step keeps the return addresses between 0x0002 and 0x1000, as 41_control_flow.md R90 says of them. -/
def Obligations.StepKeepsReturnAddresses : Prop :=
  ∀ s t : State, ReturnAddressesInRange s → step s = .next t → ReturnAddressesInRange t

/-- Every step keeps the fault registers true: in the halted state the recorded cause's condition holds of the instruction
at `PC` (D4, log 11). -/
def Obligations.StepKeepsHaltRecordTrue : Prop :=
  ∀ s t : State, HaltRecordTrue s → step s = .next t → HaltRecordTrue t

/-- In the halted state no step changes the fault registers, `PC`, `I`, a general register, memory, the stack, the
framebuffer, the mode or `next_cycle_due`; the timers only fall and a pending redraw is only cleared, while the keys,
`next_frame_due`, the time and the snapshot go on (D4, D18; log 11, log 13, log 29). -/
def Obligations.HaltedStateIsFinal : Prop :=
  ∀ s t : State, s.halted = true → step s = .next t →
    t = { s with
      dt := t.dt, st := t.st, redrawPending := t.redrawPending, nextFrameDue := t.nextFrameDue, keys := t.keys,
      now := t.now, agenda := t.agenda, turnsTaken := t.turnsTaken, presented := t.presented } ∧
    t.dt.toNat ≤ s.dt.toNat ∧ t.st.toNat ≤ s.st.toNat ∧ (t.redrawPending = true → s.redrawPending = true)

/-- While a redraw is pending and until a frame tick clears it, no step changes anything a program can see but the keys
(D13, log 26). -/
def Obligations.RedrawGateHoldsSequencer : Prop :=
  ∀ s t : State, s.redrawPending = true → step s = .next t → t.redrawPending = true →
    t = { s with
      keys := t.keys, now := t.now, agenda := t.agenda, turnsTaken := t.turnsTaken, presented := t.presented }

/-- Time and both due times never go back, and the mode never changes. -/
def Obligations.ClocksNeverGoBack : Prop :=
  ∀ s t : State, step s = .next t →
    s.now ≤ t.now ∧ s.nextCycleDue ≤ t.nextCycleDue ∧ s.nextFrameDue ≤ t.nextFrameDue ∧ t.legacy = s.legacy

/-- Who writes what (10_state.md section 7): a field that the execute phase of an instruction changes is one the table lets
it write. `PC`, which the step has already advanced, is changed by the transfers, the skips and `FX0A`, and put back by a
fault (D4, log 11). -/
def Obligations.InstructionsWriteOnlyTheirState : Prop :=
  ∀ (i : Instr) (s t : State), exec i s = .next t →
    (∀ r, writesReg i r = false → t.reg r = s.reg r) ∧
    (t.i ≠ s.i → i.tag ∈ [Tag.tANNN, Tag.tFX1E, Tag.tFX29] ∨
      (s.legacy = true ∧ i.tag ∈ [Tag.tFX55, Tag.tFX65])) ∧
    (t.pc ≠ s.pc →
      i.tag ∈ [Tag.t00EE, Tag.t1NNN, Tag.t2NNN, Tag.tBNNN, Tag.t3XNN, Tag.t4XNN, Tag.t5XY0, Tag.t9XY0, Tag.tEX9E,
        Tag.tEXA1, Tag.tFX0A] ∨
      (i.tag ∈ [Tag.tDXYN, Tag.tFX33, Tag.tFX55, Tag.tFX65] ∧ t.halted = true ∧ t.haltCause = .dataOutOfRange ∧
        t.pc = s.pc - 2)) ∧
    (t.stack ≠ s.stack → i.tag ∈ [Tag.t2NNN, Tag.t00EE]) ∧
    (t.mem ≠ s.mem → i.tag ∈ [Tag.tFX33, Tag.tFX55]) ∧
    (t.fb ≠ s.fb → i.tag ∈ [Tag.t00E0, Tag.tDXYN]) ∧
    (t.redrawPending ≠ s.redrawPending → i.tag ∈ [Tag.t00E0, Tag.tDXYN]) ∧
    (t.dt ≠ s.dt → i.tag = .tFX15) ∧ (t.st ≠ s.st → i.tag = .tFX18) ∧
    (t.halted ≠ s.halted ∨ t.haltCause ≠ s.haltCause ∨ t.haltInfo ≠ s.haltInfo →
      i.tag ∈ [Tag.t00EE, Tag.tDXYN, Tag.tFX33, Tag.tFX55, Tag.tFX65]) ∧
    t.keys = s.keys ∧ t.legacy = s.legacy ∧ t.nextCycleDue = s.nextCycleDue ∧ t.nextFrameDue = s.nextFrameDue ∧
    t.now = s.now ∧ t.presented = s.presented

/-- The mode changes the effect of the four families of 00_scope.md R2 (six tags), each on some operands in some state, and
the effect of no other instruction. -/
def Obligations.ModeChangesFourFamiliesOnly : Prop :=
  (∀ (i : Instr) (s : State) (b : Bool), modeDependent i.tag = false →
    exec i { s with legacy := b } = Outcome.withMode b (exec i s)) ∧
  ∀ tag : Tag, modeDependent tag = true → ∃ (i : Instr) (s : State), i.tag = tag ∧ i.wf = true ∧
    exec i { s with legacy := true } ≠ Outcome.withMode true (exec i { s with legacy := false })

/-- Nothing a program computes depends on the time or the due times: states that differ only there step to states that
differ only there (the spec derives this; the order of operations is the host's, log 1). -/
def Obligations.TimeDoesNotReachProgram : Prop :=
  ∀ s t : State, SameButTime s t → SameOutcomeButTime (step s) (step t)

/-- The sound timer cannot be observed: states that differ only there step to states that differ only there. -/
def Obligations.SoundTimerUnobservable : Prop :=
  ∀ s t u : State, SameButSound s t → step s = .next u → ∃ w, step t = .next w ∧ SameButSound u w

/-- At a self-jump `1NNN` a step leaves everything but the due time of the sequencer as it was, what the host's turn sets
aside (the end of a run, D26). -/
def Obligations.SelfJumpIsTheEnd : Prop :=
  ∀ (s : State) (late : Nat) (rnd : Byte) (nnn : Addr12),
    SequencerTurn s late rnd → fetch s = .ok (packNNN 0x1 nnn) → s.pc = nnn.setWidth 16 →
    step s = .next { s.atCycle late rnd with nextCycleDue := s.nextCycleDue + latency (.op1NNN nnn) }

/-- What fairness gives, latencies of 0 included: in a fair run frame ticks never cease, so that a pending redraw is always
cleared, and as long as the core is not halted neither do performed `step_cycle`s (the fairness is the spec's weak fairness
as a premise, which the model does not enforce, log 16). -/
def Obligations.FairRunsProgress : Prop :=
  ∀ (turns : Nat → HostTurn) (run : Nat → State), FairRun turns run →
    (∀ n, ∃ m, n ≤ m ∧ IsTick (turns m)) ∧
    (∀ n, ∃ m, n ≤ m ∧ (run m).redrawPending = false) ∧
    (∀ n, (run n).halted = false → ∃ m, n ≤ m ∧ IsCycle (turns m) (run m))
end

