-- ==== Sys2Proof/Laws/Memory.lean ====
section
/-! SUPPORT. The laws of main memory: a read after a write, and that every memory operation keeps the canonical form. -/

namespace Sys2Proof.Machine.Memory

@[simp] theorem read_nil (a : Nat) : Memory.read [] a = unlisted a := rfl

theorem read_cons (c : Host.Cell) (m : Memory) (a : Nat) :
    Memory.read (c :: m) a = if c.1 = a then c.2 else Memory.read m a := rfl

/-- Removing the entries of one address leaves every other byte alone. -/
theorem read_filter_other (m : Memory) {a a' : Nat} (h : a' ≠ a) :
    Memory.read (m.filter fun c => c.1 ≠ a) a' = Memory.read m a' := by
  induction m with
  | nil => rfl
  | cons c rest ih =>
    by_cases hc : c.1 = a
    · have hca : c.1 ≠ a' := fun e => h (e.symm.trans hc)
      have hd : decide (c.1 ≠ a) = false := by simp [hc]
      rw [List.filter_cons, hd, read_cons, if_neg hca]
      simpa using ih
    · have hd : decide (c.1 ≠ a) = true := by simp [hc]
      rw [List.filter_cons, hd, read_cons]
      simp only [if_true, read_cons, ih]

/-- Without an entry an address reads as after construction. -/
theorem read_of_unlisted (m : Memory) {a : Nat} (h : ∀ c ∈ m, c.1 ≠ a) : Memory.read m a = unlisted a := by
  induction m with
  | nil => rfl
  | cons c rest ih =>
    rw [read_cons, if_neg (h c (by simp))]
    exact ih fun d hd => h d (by simp [hd])

theorem read_insert_other (m : Memory) {a a' : Nat} (b : Byte) (h : a' ≠ a) :
    Memory.read (Memory.insert a b m) a' = Memory.read m a' := by
  induction m with
  | nil => simp [Memory.insert, read_cons, h.symm]
  | cons c rest ih =>
    unfold Memory.insert
    split
    · simp [read_cons, h.symm]
    · simp [read_cons, ih]

theorem read_insert_same (m : Memory) {a : Nat} (b : Byte) (h : ∀ c ∈ m, c.1 ≠ a) :
    Memory.read (Memory.insert a b m) a = b := by
  induction m with
  | nil => simp [Memory.insert, read_cons]
  | cons c rest ih =>
    unfold Memory.insert
    split
    · simp [read_cons]
    · rw [read_cons, if_neg (h c (by simp))]
      exact ih fun d hd => h d (by simp [hd])

/-- A read after a write to the same address gives the byte written. -/
theorem read_write_same (m : Memory) {a : Nat} (b : Byte) (h : a < Config.memSize) : (m.write a b).read a = b := by
  have hne : ∀ c ∈ m.filter (fun c => c.1 ≠ a), c.1 ≠ a := fun c hc => by simpa using (List.mem_filter.1 hc).2
  simp only [Memory.write, if_neg (Nat.not_le.2 h)]
  split
  · rename_i hb
    rw [read_of_unlisted _ hne, hb]
  · exact read_insert_same _ b hne

/-- A write leaves every other byte alone. -/
theorem read_write_other (m : Memory) {a a' : Nat} (b : Byte) (h : a' ≠ a) : (m.write a b).read a' = m.read a' := by
  simp only [Memory.write]
  split
  · rfl
  · split
    · exact read_filter_other m h
    · rw [read_insert_other _ b h]
      exact read_filter_other m h

/-- What a run of writes does to every byte: the bytes written stand in order from the first address, and every other byte
is as before. -/
theorem read_writeAll (m : Memory) (a : Nat) (bytes : List Byte) (h : a + bytes.length ≤ Config.memSize) (a' : Nat) :
    (m.writeAll a bytes).read a' =
      if ha : a ≤ a' ∧ a' < a + bytes.length then bytes[a' - a]'(by omega) else m.read a' := by
  induction bytes generalizing m a with
  | nil =>
    rw [dif_neg (by simp)]
    rfl
  | cons b rest ih =>
    simp only [List.length_cons] at h
    rw [Memory.writeAll, ih (m.write a b) (a + 1) (by omega)]
    by_cases h0 : a' = a
    · subst h0
      rw [dif_neg (by omega), dif_pos (by simp), read_write_same _ _ (by simp only [Config.memSize] at *; omega)]
      simp
    · by_cases h1 : a + 1 ≤ a' ∧ a' < a + 1 + rest.length
      · rw [dif_pos h1, dif_pos (by simp; omega)]
        have hs : a' - a = (a' - (a + 1)) + 1 := by omega
        simp [hs]
      · rw [dif_neg h1, dif_neg (by simp; omega), read_write_other _ _ h0]

theorem mem_insert {m : Memory} {a : Nat} {b : Byte} {c : Host.Cell} (h : c ∈ Memory.insert a b m) :
    c = (a, b) ∨ c ∈ m := by
  induction m with
  | nil => simpa [Memory.insert] using h
  | cons d rest ih =>
    unfold Memory.insert at h
    split at h
    · simpa using h
    · rcases List.mem_cons.1 h with h | h
      · exact .inr (by simp [h])
      · rcases ih h with h | h
        · exact .inl h
        · exact .inr (by simp [h])

theorem pairwise_insert {m : Memory} (a : Nat) (b : Byte) (hm : m.Pairwise fun c d => c.1 < d.1)
    (h : ∀ c ∈ m, c.1 ≠ a) : (Memory.insert a b m).Pairwise fun c d => c.1 < d.1 := by
  induction m with
  | nil => simp [Memory.insert]
  | cons c rest ih =>
    have hrest := List.pairwise_cons.1 hm
    have hc : c.1 ≠ a := h c (by simp)
    unfold Memory.insert
    split
    · rename_i hlt
      refine List.pairwise_cons.2 ⟨fun d hd => ?_, hm⟩
      rcases List.mem_cons.1 hd with rfl | hd
      · exact hlt
      · exact lt_trans hlt (hrest.1 d hd)
    · refine List.pairwise_cons.2 ⟨fun d hd => ?_, ih hrest.2 fun d hd => h d (by simp [hd])⟩
      rcases mem_insert hd with rfl | hd
      · exact lt_of_le_of_ne (by omega) hc
      · exact hrest.1 d hd

/-- A write keeps the canonical form. -/
theorem wf_write {m : Memory} (hm : m.wf) (a : Nat) (b : Byte) : (m.write a b).wf := by
  have hf : Memory.wf (m.filter fun c => c.1 ≠ a) :=
    ⟨hm.1.filter _, fun c hc => hm.2 c (List.mem_filter.1 hc).1⟩
  simp only [Memory.write]
  split
  · exact hm
  · rename_i ha
    split
    · exact hf
    · rename_i hb
      refine ⟨pairwise_insert a b hf.1 fun c hc => by simpa using (List.mem_filter.1 hc).2, fun c hc => ?_⟩
      rcases mem_insert hc with rfl | hc
      · exact ⟨Nat.not_le.1 ha, hb⟩
      · exact hf.2 c hc

/-- A run of writes keeps the canonical form. -/
theorem wf_writeAll {m : Memory} (hm : m.wf) (a : Nat) (bytes : List Byte) : (m.writeAll a bytes).wf := by
  induction bytes generalizing m a with
  | nil => exact hm
  | cons b rest ih => exact ih (wf_write hm a b) (a + 1)

theorem wf_nil : Memory.wf [] := ⟨List.Pairwise.nil, by simp⟩

end Sys2Proof.Machine.Memory
end

