-- ==== Sys2Proof/Laws/State.lean ====
section
/-! SUPPORT. What each update of the state does to each field, and the composed updates as the plain ones. -/

namespace Sys2Proof.Machine

variable (s : State)

@[simp] theorem setReg_v (x : RegIx) (b : Byte) : (s.setReg x b).v = s.v.set x.val b x.isLt := rfl
@[simp] theorem setReg_i (x : RegIx) (b : Byte) : (s.setReg x b).i = s.i := rfl
@[simp] theorem setReg_pc (x : RegIx) (b : Byte) : (s.setReg x b).pc = s.pc := rfl
@[simp] theorem setReg_stack (x : RegIx) (b : Byte) : (s.setReg x b).stack = s.stack := rfl
@[simp] theorem setReg_dt (x : RegIx) (b : Byte) : (s.setReg x b).dt = s.dt := rfl
@[simp] theorem setReg_st (x : RegIx) (b : Byte) : (s.setReg x b).st = s.st := rfl
@[simp] theorem setReg_legacy (x : RegIx) (b : Byte) : (s.setReg x b).legacy = s.legacy := rfl
@[simp] theorem setReg_redrawPending (x : RegIx) (b : Byte) : (s.setReg x b).redrawPending = s.redrawPending := rfl
@[simp] theorem setReg_nextCycleDue (x : RegIx) (b : Byte) : (s.setReg x b).nextCycleDue = s.nextCycleDue := rfl
@[simp] theorem setReg_nextFrameDue (x : RegIx) (b : Byte) : (s.setReg x b).nextFrameDue = s.nextFrameDue := rfl
@[simp] theorem setReg_halted (x : RegIx) (b : Byte) : (s.setReg x b).halted = s.halted := rfl
@[simp] theorem setReg_haltCause (x : RegIx) (b : Byte) : (s.setReg x b).haltCause = s.haltCause := rfl
@[simp] theorem setReg_haltInfo (x : RegIx) (b : Byte) : (s.setReg x b).haltInfo = s.haltInfo := rfl
@[simp] theorem setReg_mem (x : RegIx) (b : Byte) : (s.setReg x b).mem = s.mem := rfl
@[simp] theorem setReg_fb (x : RegIx) (b : Byte) : (s.setReg x b).fb = s.fb := rfl
@[simp] theorem setReg_keys (x : RegIx) (b : Byte) : (s.setReg x b).keys = s.keys := rfl
@[simp] theorem setReg_now (x : RegIx) (b : Byte) : (s.setReg x b).now = s.now := rfl
@[simp] theorem setReg_rnd (x : RegIx) (b : Byte) : (s.setReg x b).rnd = s.rnd := rfl
@[simp] theorem setReg_agenda (x : RegIx) (b : Byte) : (s.setReg x b).agenda = s.agenda := rfl
@[simp] theorem setReg_turnsTaken (x : RegIx) (b : Byte) : (s.setReg x b).turnsTaken = s.turnsTaken := rfl
@[simp] theorem setReg_presented (x : RegIx) (b : Byte) : (s.setReg x b).presented = s.presented := rfl

@[simp] theorem setIndex_v (w : Word) : (s.setIndex w).v = s.v := rfl
@[simp] theorem setIndex_i (w : Word) : (s.setIndex w).i = w := rfl
@[simp] theorem setIndex_pc (w : Word) : (s.setIndex w).pc = s.pc := rfl
@[simp] theorem setIndex_stack (w : Word) : (s.setIndex w).stack = s.stack := rfl
@[simp] theorem setIndex_dt (w : Word) : (s.setIndex w).dt = s.dt := rfl
@[simp] theorem setIndex_st (w : Word) : (s.setIndex w).st = s.st := rfl
@[simp] theorem setIndex_legacy (w : Word) : (s.setIndex w).legacy = s.legacy := rfl
@[simp] theorem setIndex_redrawPending (w : Word) : (s.setIndex w).redrawPending = s.redrawPending := rfl
@[simp] theorem setIndex_nextCycleDue (w : Word) : (s.setIndex w).nextCycleDue = s.nextCycleDue := rfl
@[simp] theorem setIndex_nextFrameDue (w : Word) : (s.setIndex w).nextFrameDue = s.nextFrameDue := rfl
@[simp] theorem setIndex_halted (w : Word) : (s.setIndex w).halted = s.halted := rfl
@[simp] theorem setIndex_haltCause (w : Word) : (s.setIndex w).haltCause = s.haltCause := rfl
@[simp] theorem setIndex_haltInfo (w : Word) : (s.setIndex w).haltInfo = s.haltInfo := rfl
@[simp] theorem setIndex_mem (w : Word) : (s.setIndex w).mem = s.mem := rfl
@[simp] theorem setIndex_fb (w : Word) : (s.setIndex w).fb = s.fb := rfl
@[simp] theorem setIndex_keys (w : Word) : (s.setIndex w).keys = s.keys := rfl
@[simp] theorem setIndex_now (w : Word) : (s.setIndex w).now = s.now := rfl
@[simp] theorem setIndex_rnd (w : Word) : (s.setIndex w).rnd = s.rnd := rfl
@[simp] theorem setIndex_agenda (w : Word) : (s.setIndex w).agenda = s.agenda := rfl
@[simp] theorem setIndex_turnsTaken (w : Word) : (s.setIndex w).turnsTaken = s.turnsTaken := rfl
@[simp] theorem setIndex_presented (w : Word) : (s.setIndex w).presented = s.presented := rfl

@[simp] theorem setPc_v (w : Word) : (s.setPc w).v = s.v := rfl
@[simp] theorem setPc_i (w : Word) : (s.setPc w).i = s.i := rfl
@[simp] theorem setPc_pc (w : Word) : (s.setPc w).pc = w := rfl
@[simp] theorem setPc_stack (w : Word) : (s.setPc w).stack = s.stack := rfl
@[simp] theorem setPc_dt (w : Word) : (s.setPc w).dt = s.dt := rfl
@[simp] theorem setPc_st (w : Word) : (s.setPc w).st = s.st := rfl
@[simp] theorem setPc_legacy (w : Word) : (s.setPc w).legacy = s.legacy := rfl
@[simp] theorem setPc_redrawPending (w : Word) : (s.setPc w).redrawPending = s.redrawPending := rfl
@[simp] theorem setPc_nextCycleDue (w : Word) : (s.setPc w).nextCycleDue = s.nextCycleDue := rfl
@[simp] theorem setPc_nextFrameDue (w : Word) : (s.setPc w).nextFrameDue = s.nextFrameDue := rfl
@[simp] theorem setPc_halted (w : Word) : (s.setPc w).halted = s.halted := rfl
@[simp] theorem setPc_haltCause (w : Word) : (s.setPc w).haltCause = s.haltCause := rfl
@[simp] theorem setPc_haltInfo (w : Word) : (s.setPc w).haltInfo = s.haltInfo := rfl
@[simp] theorem setPc_mem (w : Word) : (s.setPc w).mem = s.mem := rfl
@[simp] theorem setPc_fb (w : Word) : (s.setPc w).fb = s.fb := rfl
@[simp] theorem setPc_keys (w : Word) : (s.setPc w).keys = s.keys := rfl
@[simp] theorem setPc_now (w : Word) : (s.setPc w).now = s.now := rfl
@[simp] theorem setPc_rnd (w : Word) : (s.setPc w).rnd = s.rnd := rfl
@[simp] theorem setPc_agenda (w : Word) : (s.setPc w).agenda = s.agenda := rfl
@[simp] theorem setPc_turnsTaken (w : Word) : (s.setPc w).turnsTaken = s.turnsTaken := rfl
@[simp] theorem setPc_presented (w : Word) : (s.setPc w).presented = s.presented := rfl

@[simp] theorem setStack_v (l : List Word) : (s.setStack l).v = s.v := rfl
@[simp] theorem setStack_i (l : List Word) : (s.setStack l).i = s.i := rfl
@[simp] theorem setStack_pc (l : List Word) : (s.setStack l).pc = s.pc := rfl
@[simp] theorem setStack_stack (l : List Word) : (s.setStack l).stack = l := rfl
@[simp] theorem setStack_dt (l : List Word) : (s.setStack l).dt = s.dt := rfl
@[simp] theorem setStack_st (l : List Word) : (s.setStack l).st = s.st := rfl
@[simp] theorem setStack_legacy (l : List Word) : (s.setStack l).legacy = s.legacy := rfl
@[simp] theorem setStack_redrawPending (l : List Word) : (s.setStack l).redrawPending = s.redrawPending := rfl
@[simp] theorem setStack_nextCycleDue (l : List Word) : (s.setStack l).nextCycleDue = s.nextCycleDue := rfl
@[simp] theorem setStack_nextFrameDue (l : List Word) : (s.setStack l).nextFrameDue = s.nextFrameDue := rfl
@[simp] theorem setStack_halted (l : List Word) : (s.setStack l).halted = s.halted := rfl
@[simp] theorem setStack_haltCause (l : List Word) : (s.setStack l).haltCause = s.haltCause := rfl
@[simp] theorem setStack_haltInfo (l : List Word) : (s.setStack l).haltInfo = s.haltInfo := rfl
@[simp] theorem setStack_mem (l : List Word) : (s.setStack l).mem = s.mem := rfl
@[simp] theorem setStack_fb (l : List Word) : (s.setStack l).fb = s.fb := rfl
@[simp] theorem setStack_keys (l : List Word) : (s.setStack l).keys = s.keys := rfl
@[simp] theorem setStack_now (l : List Word) : (s.setStack l).now = s.now := rfl
@[simp] theorem setStack_rnd (l : List Word) : (s.setStack l).rnd = s.rnd := rfl
@[simp] theorem setStack_agenda (l : List Word) : (s.setStack l).agenda = s.agenda := rfl
@[simp] theorem setStack_turnsTaken (l : List Word) : (s.setStack l).turnsTaken = s.turnsTaken := rfl
@[simp] theorem setStack_presented (l : List Word) : (s.setStack l).presented = s.presented := rfl

@[simp] theorem setDelay_v (b : Byte) : (s.setDelay b).v = s.v := rfl
@[simp] theorem setDelay_i (b : Byte) : (s.setDelay b).i = s.i := rfl
@[simp] theorem setDelay_pc (b : Byte) : (s.setDelay b).pc = s.pc := rfl
@[simp] theorem setDelay_stack (b : Byte) : (s.setDelay b).stack = s.stack := rfl
@[simp] theorem setDelay_dt (b : Byte) : (s.setDelay b).dt = b := rfl
@[simp] theorem setDelay_st (b : Byte) : (s.setDelay b).st = s.st := rfl
@[simp] theorem setDelay_legacy (b : Byte) : (s.setDelay b).legacy = s.legacy := rfl
@[simp] theorem setDelay_redrawPending (b : Byte) : (s.setDelay b).redrawPending = s.redrawPending := rfl
@[simp] theorem setDelay_nextCycleDue (b : Byte) : (s.setDelay b).nextCycleDue = s.nextCycleDue := rfl
@[simp] theorem setDelay_nextFrameDue (b : Byte) : (s.setDelay b).nextFrameDue = s.nextFrameDue := rfl
@[simp] theorem setDelay_halted (b : Byte) : (s.setDelay b).halted = s.halted := rfl
@[simp] theorem setDelay_haltCause (b : Byte) : (s.setDelay b).haltCause = s.haltCause := rfl
@[simp] theorem setDelay_haltInfo (b : Byte) : (s.setDelay b).haltInfo = s.haltInfo := rfl
@[simp] theorem setDelay_mem (b : Byte) : (s.setDelay b).mem = s.mem := rfl
@[simp] theorem setDelay_fb (b : Byte) : (s.setDelay b).fb = s.fb := rfl
@[simp] theorem setDelay_keys (b : Byte) : (s.setDelay b).keys = s.keys := rfl
@[simp] theorem setDelay_now (b : Byte) : (s.setDelay b).now = s.now := rfl
@[simp] theorem setDelay_rnd (b : Byte) : (s.setDelay b).rnd = s.rnd := rfl
@[simp] theorem setDelay_agenda (b : Byte) : (s.setDelay b).agenda = s.agenda := rfl
@[simp] theorem setDelay_turnsTaken (b : Byte) : (s.setDelay b).turnsTaken = s.turnsTaken := rfl
@[simp] theorem setDelay_presented (b : Byte) : (s.setDelay b).presented = s.presented := rfl

@[simp] theorem setSound_v (b : Byte) : (s.setSound b).v = s.v := rfl
@[simp] theorem setSound_i (b : Byte) : (s.setSound b).i = s.i := rfl
@[simp] theorem setSound_pc (b : Byte) : (s.setSound b).pc = s.pc := rfl
@[simp] theorem setSound_stack (b : Byte) : (s.setSound b).stack = s.stack := rfl
@[simp] theorem setSound_dt (b : Byte) : (s.setSound b).dt = s.dt := rfl
@[simp] theorem setSound_st (b : Byte) : (s.setSound b).st = b := rfl
@[simp] theorem setSound_legacy (b : Byte) : (s.setSound b).legacy = s.legacy := rfl
@[simp] theorem setSound_redrawPending (b : Byte) : (s.setSound b).redrawPending = s.redrawPending := rfl
@[simp] theorem setSound_nextCycleDue (b : Byte) : (s.setSound b).nextCycleDue = s.nextCycleDue := rfl
@[simp] theorem setSound_nextFrameDue (b : Byte) : (s.setSound b).nextFrameDue = s.nextFrameDue := rfl
@[simp] theorem setSound_halted (b : Byte) : (s.setSound b).halted = s.halted := rfl
@[simp] theorem setSound_haltCause (b : Byte) : (s.setSound b).haltCause = s.haltCause := rfl
@[simp] theorem setSound_haltInfo (b : Byte) : (s.setSound b).haltInfo = s.haltInfo := rfl
@[simp] theorem setSound_mem (b : Byte) : (s.setSound b).mem = s.mem := rfl
@[simp] theorem setSound_fb (b : Byte) : (s.setSound b).fb = s.fb := rfl
@[simp] theorem setSound_keys (b : Byte) : (s.setSound b).keys = s.keys := rfl
@[simp] theorem setSound_now (b : Byte) : (s.setSound b).now = s.now := rfl
@[simp] theorem setSound_rnd (b : Byte) : (s.setSound b).rnd = s.rnd := rfl
@[simp] theorem setSound_agenda (b : Byte) : (s.setSound b).agenda = s.agenda := rfl
@[simp] theorem setSound_turnsTaken (b : Byte) : (s.setSound b).turnsTaken = s.turnsTaken := rfl
@[simp] theorem setSound_presented (b : Byte) : (s.setSound b).presented = s.presented := rfl

@[simp] theorem setFb_v (f : Framebuffer) : (s.setFb f).v = s.v := rfl
@[simp] theorem setFb_i (f : Framebuffer) : (s.setFb f).i = s.i := rfl
@[simp] theorem setFb_pc (f : Framebuffer) : (s.setFb f).pc = s.pc := rfl
@[simp] theorem setFb_stack (f : Framebuffer) : (s.setFb f).stack = s.stack := rfl
@[simp] theorem setFb_dt (f : Framebuffer) : (s.setFb f).dt = s.dt := rfl
@[simp] theorem setFb_st (f : Framebuffer) : (s.setFb f).st = s.st := rfl
@[simp] theorem setFb_legacy (f : Framebuffer) : (s.setFb f).legacy = s.legacy := rfl
@[simp] theorem setFb_redrawPending (f : Framebuffer) : (s.setFb f).redrawPending = s.redrawPending := rfl
@[simp] theorem setFb_nextCycleDue (f : Framebuffer) : (s.setFb f).nextCycleDue = s.nextCycleDue := rfl
@[simp] theorem setFb_nextFrameDue (f : Framebuffer) : (s.setFb f).nextFrameDue = s.nextFrameDue := rfl
@[simp] theorem setFb_halted (f : Framebuffer) : (s.setFb f).halted = s.halted := rfl
@[simp] theorem setFb_haltCause (f : Framebuffer) : (s.setFb f).haltCause = s.haltCause := rfl
@[simp] theorem setFb_haltInfo (f : Framebuffer) : (s.setFb f).haltInfo = s.haltInfo := rfl
@[simp] theorem setFb_mem (f : Framebuffer) : (s.setFb f).mem = s.mem := rfl
@[simp] theorem setFb_fb (f : Framebuffer) : (s.setFb f).fb = f := rfl
@[simp] theorem setFb_keys (f : Framebuffer) : (s.setFb f).keys = s.keys := rfl
@[simp] theorem setFb_now (f : Framebuffer) : (s.setFb f).now = s.now := rfl
@[simp] theorem setFb_rnd (f : Framebuffer) : (s.setFb f).rnd = s.rnd := rfl
@[simp] theorem setFb_agenda (f : Framebuffer) : (s.setFb f).agenda = s.agenda := rfl
@[simp] theorem setFb_turnsTaken (f : Framebuffer) : (s.setFb f).turnsTaken = s.turnsTaken := rfl
@[simp] theorem setFb_presented (f : Framebuffer) : (s.setFb f).presented = s.presented := rfl

@[simp] theorem setRedraw_v (b : Bool) : (s.setRedraw b).v = s.v := rfl
@[simp] theorem setRedraw_i (b : Bool) : (s.setRedraw b).i = s.i := rfl
@[simp] theorem setRedraw_pc (b : Bool) : (s.setRedraw b).pc = s.pc := rfl
@[simp] theorem setRedraw_stack (b : Bool) : (s.setRedraw b).stack = s.stack := rfl
@[simp] theorem setRedraw_dt (b : Bool) : (s.setRedraw b).dt = s.dt := rfl
@[simp] theorem setRedraw_st (b : Bool) : (s.setRedraw b).st = s.st := rfl
@[simp] theorem setRedraw_legacy (b : Bool) : (s.setRedraw b).legacy = s.legacy := rfl
@[simp] theorem setRedraw_redrawPending (b : Bool) : (s.setRedraw b).redrawPending = b := rfl
@[simp] theorem setRedraw_nextCycleDue (b : Bool) : (s.setRedraw b).nextCycleDue = s.nextCycleDue := rfl
@[simp] theorem setRedraw_nextFrameDue (b : Bool) : (s.setRedraw b).nextFrameDue = s.nextFrameDue := rfl
@[simp] theorem setRedraw_halted (b : Bool) : (s.setRedraw b).halted = s.halted := rfl
@[simp] theorem setRedraw_haltCause (b : Bool) : (s.setRedraw b).haltCause = s.haltCause := rfl
@[simp] theorem setRedraw_haltInfo (b : Bool) : (s.setRedraw b).haltInfo = s.haltInfo := rfl
@[simp] theorem setRedraw_mem (b : Bool) : (s.setRedraw b).mem = s.mem := rfl
@[simp] theorem setRedraw_fb (b : Bool) : (s.setRedraw b).fb = s.fb := rfl
@[simp] theorem setRedraw_keys (b : Bool) : (s.setRedraw b).keys = s.keys := rfl
@[simp] theorem setRedraw_now (b : Bool) : (s.setRedraw b).now = s.now := rfl
@[simp] theorem setRedraw_rnd (b : Bool) : (s.setRedraw b).rnd = s.rnd := rfl
@[simp] theorem setRedraw_agenda (b : Bool) : (s.setRedraw b).agenda = s.agenda := rfl
@[simp] theorem setRedraw_turnsTaken (b : Bool) : (s.setRedraw b).turnsTaken = s.turnsTaken := rfl
@[simp] theorem setRedraw_presented (b : Bool) : (s.setRedraw b).presented = s.presented := rfl

@[simp] theorem setKey_v (k : KeyIx) (b : Bool) : (s.setKey k b).v = s.v := rfl
@[simp] theorem setKey_i (k : KeyIx) (b : Bool) : (s.setKey k b).i = s.i := rfl
@[simp] theorem setKey_pc (k : KeyIx) (b : Bool) : (s.setKey k b).pc = s.pc := rfl
@[simp] theorem setKey_stack (k : KeyIx) (b : Bool) : (s.setKey k b).stack = s.stack := rfl
@[simp] theorem setKey_dt (k : KeyIx) (b : Bool) : (s.setKey k b).dt = s.dt := rfl
@[simp] theorem setKey_st (k : KeyIx) (b : Bool) : (s.setKey k b).st = s.st := rfl
@[simp] theorem setKey_legacy (k : KeyIx) (b : Bool) : (s.setKey k b).legacy = s.legacy := rfl
@[simp] theorem setKey_redrawPending (k : KeyIx) (b : Bool) : (s.setKey k b).redrawPending = s.redrawPending := rfl
@[simp] theorem setKey_nextCycleDue (k : KeyIx) (b : Bool) : (s.setKey k b).nextCycleDue = s.nextCycleDue := rfl
@[simp] theorem setKey_nextFrameDue (k : KeyIx) (b : Bool) : (s.setKey k b).nextFrameDue = s.nextFrameDue := rfl
@[simp] theorem setKey_halted (k : KeyIx) (b : Bool) : (s.setKey k b).halted = s.halted := rfl
@[simp] theorem setKey_haltCause (k : KeyIx) (b : Bool) : (s.setKey k b).haltCause = s.haltCause := rfl
@[simp] theorem setKey_haltInfo (k : KeyIx) (b : Bool) : (s.setKey k b).haltInfo = s.haltInfo := rfl
@[simp] theorem setKey_mem (k : KeyIx) (b : Bool) : (s.setKey k b).mem = s.mem := rfl
@[simp] theorem setKey_fb (k : KeyIx) (b : Bool) : (s.setKey k b).fb = s.fb := rfl
@[simp] theorem setKey_keys (k : KeyIx) (b : Bool) : (s.setKey k b).keys = s.keys.set k.val b k.isLt := rfl
@[simp] theorem setKey_now (k : KeyIx) (b : Bool) : (s.setKey k b).now = s.now := rfl
@[simp] theorem setKey_rnd (k : KeyIx) (b : Bool) : (s.setKey k b).rnd = s.rnd := rfl
@[simp] theorem setKey_agenda (k : KeyIx) (b : Bool) : (s.setKey k b).agenda = s.agenda := rfl
@[simp] theorem setKey_turnsTaken (k : KeyIx) (b : Bool) : (s.setKey k b).turnsTaken = s.turnsTaken := rfl
@[simp] theorem setKey_presented (k : KeyIx) (b : Bool) : (s.setKey k b).presented = s.presented := rfl

@[simp] theorem setMem_v (m : Memory) : (s.setMem m).v = s.v := rfl
@[simp] theorem setMem_i (m : Memory) : (s.setMem m).i = s.i := rfl
@[simp] theorem setMem_pc (m : Memory) : (s.setMem m).pc = s.pc := rfl
@[simp] theorem setMem_stack (m : Memory) : (s.setMem m).stack = s.stack := rfl
@[simp] theorem setMem_dt (m : Memory) : (s.setMem m).dt = s.dt := rfl
@[simp] theorem setMem_st (m : Memory) : (s.setMem m).st = s.st := rfl
@[simp] theorem setMem_legacy (m : Memory) : (s.setMem m).legacy = s.legacy := rfl
@[simp] theorem setMem_redrawPending (m : Memory) : (s.setMem m).redrawPending = s.redrawPending := rfl
@[simp] theorem setMem_nextCycleDue (m : Memory) : (s.setMem m).nextCycleDue = s.nextCycleDue := rfl
@[simp] theorem setMem_nextFrameDue (m : Memory) : (s.setMem m).nextFrameDue = s.nextFrameDue := rfl
@[simp] theorem setMem_halted (m : Memory) : (s.setMem m).halted = s.halted := rfl
@[simp] theorem setMem_haltCause (m : Memory) : (s.setMem m).haltCause = s.haltCause := rfl
@[simp] theorem setMem_haltInfo (m : Memory) : (s.setMem m).haltInfo = s.haltInfo := rfl
@[simp] theorem setMem_mem (m : Memory) : (s.setMem m).mem = m := rfl
@[simp] theorem setMem_fb (m : Memory) : (s.setMem m).fb = s.fb := rfl
@[simp] theorem setMem_keys (m : Memory) : (s.setMem m).keys = s.keys := rfl
@[simp] theorem setMem_now (m : Memory) : (s.setMem m).now = s.now := rfl
@[simp] theorem setMem_rnd (m : Memory) : (s.setMem m).rnd = s.rnd := rfl
@[simp] theorem setMem_agenda (m : Memory) : (s.setMem m).agenda = s.agenda := rfl
@[simp] theorem setMem_turnsTaken (m : Memory) : (s.setMem m).turnsTaken = s.turnsTaken := rfl
@[simp] theorem setMem_presented (m : Memory) : (s.setMem m).presented = s.presented := rfl

@[simp] theorem chargeCycle_v (n : Nat) : (s.chargeCycle n).v = s.v := rfl
@[simp] theorem chargeCycle_i (n : Nat) : (s.chargeCycle n).i = s.i := rfl
@[simp] theorem chargeCycle_pc (n : Nat) : (s.chargeCycle n).pc = s.pc := rfl
@[simp] theorem chargeCycle_stack (n : Nat) : (s.chargeCycle n).stack = s.stack := rfl
@[simp] theorem chargeCycle_dt (n : Nat) : (s.chargeCycle n).dt = s.dt := rfl
@[simp] theorem chargeCycle_st (n : Nat) : (s.chargeCycle n).st = s.st := rfl
@[simp] theorem chargeCycle_legacy (n : Nat) : (s.chargeCycle n).legacy = s.legacy := rfl
@[simp] theorem chargeCycle_redrawPending (n : Nat) : (s.chargeCycle n).redrawPending = s.redrawPending := rfl
@[simp] theorem chargeCycle_nextCycleDue (n : Nat) : (s.chargeCycle n).nextCycleDue = s.nextCycleDue + n := rfl
@[simp] theorem chargeCycle_nextFrameDue (n : Nat) : (s.chargeCycle n).nextFrameDue = s.nextFrameDue := rfl
@[simp] theorem chargeCycle_halted (n : Nat) : (s.chargeCycle n).halted = s.halted := rfl
@[simp] theorem chargeCycle_haltCause (n : Nat) : (s.chargeCycle n).haltCause = s.haltCause := rfl
@[simp] theorem chargeCycle_haltInfo (n : Nat) : (s.chargeCycle n).haltInfo = s.haltInfo := rfl
@[simp] theorem chargeCycle_mem (n : Nat) : (s.chargeCycle n).mem = s.mem := rfl
@[simp] theorem chargeCycle_fb (n : Nat) : (s.chargeCycle n).fb = s.fb := rfl
@[simp] theorem chargeCycle_keys (n : Nat) : (s.chargeCycle n).keys = s.keys := rfl
@[simp] theorem chargeCycle_now (n : Nat) : (s.chargeCycle n).now = s.now := rfl
@[simp] theorem chargeCycle_rnd (n : Nat) : (s.chargeCycle n).rnd = s.rnd := rfl
@[simp] theorem chargeCycle_agenda (n : Nat) : (s.chargeCycle n).agenda = s.agenda := rfl
@[simp] theorem chargeCycle_turnsTaken (n : Nat) : (s.chargeCycle n).turnsTaken = s.turnsTaken := rfl
@[simp] theorem chargeCycle_presented (n : Nat) : (s.chargeCycle n).presented = s.presented := rfl

@[simp] theorem setNow_v (n : Nat) : (s.setNow n).v = s.v := rfl
@[simp] theorem setNow_i (n : Nat) : (s.setNow n).i = s.i := rfl
@[simp] theorem setNow_pc (n : Nat) : (s.setNow n).pc = s.pc := rfl
@[simp] theorem setNow_stack (n : Nat) : (s.setNow n).stack = s.stack := rfl
@[simp] theorem setNow_dt (n : Nat) : (s.setNow n).dt = s.dt := rfl
@[simp] theorem setNow_st (n : Nat) : (s.setNow n).st = s.st := rfl
@[simp] theorem setNow_legacy (n : Nat) : (s.setNow n).legacy = s.legacy := rfl
@[simp] theorem setNow_redrawPending (n : Nat) : (s.setNow n).redrawPending = s.redrawPending := rfl
@[simp] theorem setNow_nextCycleDue (n : Nat) : (s.setNow n).nextCycleDue = s.nextCycleDue := rfl
@[simp] theorem setNow_nextFrameDue (n : Nat) : (s.setNow n).nextFrameDue = s.nextFrameDue := rfl
@[simp] theorem setNow_halted (n : Nat) : (s.setNow n).halted = s.halted := rfl
@[simp] theorem setNow_haltCause (n : Nat) : (s.setNow n).haltCause = s.haltCause := rfl
@[simp] theorem setNow_haltInfo (n : Nat) : (s.setNow n).haltInfo = s.haltInfo := rfl
@[simp] theorem setNow_mem (n : Nat) : (s.setNow n).mem = s.mem := rfl
@[simp] theorem setNow_fb (n : Nat) : (s.setNow n).fb = s.fb := rfl
@[simp] theorem setNow_keys (n : Nat) : (s.setNow n).keys = s.keys := rfl
@[simp] theorem setNow_now (n : Nat) : (s.setNow n).now = n := rfl
@[simp] theorem setNow_rnd (n : Nat) : (s.setNow n).rnd = s.rnd := rfl
@[simp] theorem setNow_agenda (n : Nat) : (s.setNow n).agenda = s.agenda := rfl
@[simp] theorem setNow_turnsTaken (n : Nat) : (s.setNow n).turnsTaken = s.turnsTaken := rfl
@[simp] theorem setNow_presented (n : Nat) : (s.setNow n).presented = s.presented := rfl

@[simp] theorem setRnd_v (b : Byte) : (s.setRnd b).v = s.v := rfl
@[simp] theorem setRnd_i (b : Byte) : (s.setRnd b).i = s.i := rfl
@[simp] theorem setRnd_pc (b : Byte) : (s.setRnd b).pc = s.pc := rfl
@[simp] theorem setRnd_stack (b : Byte) : (s.setRnd b).stack = s.stack := rfl
@[simp] theorem setRnd_dt (b : Byte) : (s.setRnd b).dt = s.dt := rfl
@[simp] theorem setRnd_st (b : Byte) : (s.setRnd b).st = s.st := rfl
@[simp] theorem setRnd_legacy (b : Byte) : (s.setRnd b).legacy = s.legacy := rfl
@[simp] theorem setRnd_redrawPending (b : Byte) : (s.setRnd b).redrawPending = s.redrawPending := rfl
@[simp] theorem setRnd_nextCycleDue (b : Byte) : (s.setRnd b).nextCycleDue = s.nextCycleDue := rfl
@[simp] theorem setRnd_nextFrameDue (b : Byte) : (s.setRnd b).nextFrameDue = s.nextFrameDue := rfl
@[simp] theorem setRnd_halted (b : Byte) : (s.setRnd b).halted = s.halted := rfl
@[simp] theorem setRnd_haltCause (b : Byte) : (s.setRnd b).haltCause = s.haltCause := rfl
@[simp] theorem setRnd_haltInfo (b : Byte) : (s.setRnd b).haltInfo = s.haltInfo := rfl
@[simp] theorem setRnd_mem (b : Byte) : (s.setRnd b).mem = s.mem := rfl
@[simp] theorem setRnd_fb (b : Byte) : (s.setRnd b).fb = s.fb := rfl
@[simp] theorem setRnd_keys (b : Byte) : (s.setRnd b).keys = s.keys := rfl
@[simp] theorem setRnd_now (b : Byte) : (s.setRnd b).now = s.now := rfl
@[simp] theorem setRnd_rnd (b : Byte) : (s.setRnd b).rnd = b := rfl
@[simp] theorem setRnd_agenda (b : Byte) : (s.setRnd b).agenda = s.agenda := rfl
@[simp] theorem setRnd_turnsTaken (b : Byte) : (s.setRnd b).turnsTaken = s.turnsTaken := rfl
@[simp] theorem setRnd_presented (b : Byte) : (s.setRnd b).presented = s.presented := rfl

@[simp] theorem present_v : (s.present).v = s.v := rfl
@[simp] theorem present_i : (s.present).i = s.i := rfl
@[simp] theorem present_pc : (s.present).pc = s.pc := rfl
@[simp] theorem present_stack : (s.present).stack = s.stack := rfl
@[simp] theorem present_dt : (s.present).dt = s.dt := rfl
@[simp] theorem present_st : (s.present).st = s.st := rfl
@[simp] theorem present_legacy : (s.present).legacy = s.legacy := rfl
@[simp] theorem present_redrawPending : (s.present).redrawPending = s.redrawPending := rfl
@[simp] theorem present_nextCycleDue : (s.present).nextCycleDue = s.nextCycleDue := rfl
@[simp] theorem present_nextFrameDue : (s.present).nextFrameDue = s.nextFrameDue := rfl
@[simp] theorem present_halted : (s.present).halted = s.halted := rfl
@[simp] theorem present_haltCause : (s.present).haltCause = s.haltCause := rfl
@[simp] theorem present_haltInfo : (s.present).haltInfo = s.haltInfo := rfl
@[simp] theorem present_mem : (s.present).mem = s.mem := rfl
@[simp] theorem present_fb : (s.present).fb = s.fb := rfl
@[simp] theorem present_keys : (s.present).keys = s.keys := rfl
@[simp] theorem present_now : (s.present).now = s.now := rfl
@[simp] theorem present_rnd : (s.present).rnd = s.rnd := rfl
@[simp] theorem present_agenda : (s.present).agenda = s.agenda := rfl
@[simp] theorem present_turnsTaken : (s.present).turnsTaken = s.turnsTaken := rfl
@[simp] theorem present_presented : (s.present).presented = some s.fb := rfl

@[simp] theorem takeTurn_v : (s.takeTurn).v = s.v := rfl
@[simp] theorem takeTurn_i : (s.takeTurn).i = s.i := rfl
@[simp] theorem takeTurn_pc : (s.takeTurn).pc = s.pc := rfl
@[simp] theorem takeTurn_stack : (s.takeTurn).stack = s.stack := rfl
@[simp] theorem takeTurn_dt : (s.takeTurn).dt = s.dt := rfl
@[simp] theorem takeTurn_st : (s.takeTurn).st = s.st := rfl
@[simp] theorem takeTurn_legacy : (s.takeTurn).legacy = s.legacy := rfl
@[simp] theorem takeTurn_redrawPending : (s.takeTurn).redrawPending = s.redrawPending := rfl
@[simp] theorem takeTurn_nextCycleDue : (s.takeTurn).nextCycleDue = s.nextCycleDue := rfl
@[simp] theorem takeTurn_nextFrameDue : (s.takeTurn).nextFrameDue = s.nextFrameDue := rfl
@[simp] theorem takeTurn_halted : (s.takeTurn).halted = s.halted := rfl
@[simp] theorem takeTurn_haltCause : (s.takeTurn).haltCause = s.haltCause := rfl
@[simp] theorem takeTurn_haltInfo : (s.takeTurn).haltInfo = s.haltInfo := rfl
@[simp] theorem takeTurn_mem : (s.takeTurn).mem = s.mem := rfl
@[simp] theorem takeTurn_fb : (s.takeTurn).fb = s.fb := rfl
@[simp] theorem takeTurn_keys : (s.takeTurn).keys = s.keys := rfl
@[simp] theorem takeTurn_now : (s.takeTurn).now = s.now := rfl
@[simp] theorem takeTurn_rnd : (s.takeTurn).rnd = s.rnd := rfl
@[simp] theorem takeTurn_agenda : (s.takeTurn).agenda = s.agenda.tail := rfl
@[simp] theorem takeTurn_turnsTaken : (s.takeTurn).turnsTaken = s.turnsTaken + 1 := rfl
@[simp] theorem takeTurn_presented : (s.takeTurn).presented = s.presented := rfl

@[simp] theorem raise_v (c : HaltCause) (w : Word) : (raise c w s).v = s.v := rfl
@[simp] theorem raise_i (c : HaltCause) (w : Word) : (raise c w s).i = s.i := rfl
@[simp] theorem raise_pc (c : HaltCause) (w : Word) : (raise c w s).pc = s.pc := rfl
@[simp] theorem raise_stack (c : HaltCause) (w : Word) : (raise c w s).stack = s.stack := rfl
@[simp] theorem raise_dt (c : HaltCause) (w : Word) : (raise c w s).dt = s.dt := rfl
@[simp] theorem raise_st (c : HaltCause) (w : Word) : (raise c w s).st = s.st := rfl
@[simp] theorem raise_legacy (c : HaltCause) (w : Word) : (raise c w s).legacy = s.legacy := rfl
@[simp] theorem raise_redrawPending (c : HaltCause) (w : Word) : (raise c w s).redrawPending = s.redrawPending := rfl
@[simp] theorem raise_nextCycleDue (c : HaltCause) (w : Word) : (raise c w s).nextCycleDue = s.nextCycleDue := rfl
@[simp] theorem raise_nextFrameDue (c : HaltCause) (w : Word) : (raise c w s).nextFrameDue = s.nextFrameDue := rfl
@[simp] theorem raise_halted (c : HaltCause) (w : Word) : (raise c w s).halted = true := rfl
@[simp] theorem raise_haltCause (c : HaltCause) (w : Word) : (raise c w s).haltCause = c := rfl
@[simp] theorem raise_haltInfo (c : HaltCause) (w : Word) : (raise c w s).haltInfo = w := rfl
@[simp] theorem raise_mem (c : HaltCause) (w : Word) : (raise c w s).mem = s.mem := rfl
@[simp] theorem raise_fb (c : HaltCause) (w : Word) : (raise c w s).fb = s.fb := rfl
@[simp] theorem raise_keys (c : HaltCause) (w : Word) : (raise c w s).keys = s.keys := rfl
@[simp] theorem raise_now (c : HaltCause) (w : Word) : (raise c w s).now = s.now := rfl
@[simp] theorem raise_rnd (c : HaltCause) (w : Word) : (raise c w s).rnd = s.rnd := rfl
@[simp] theorem raise_agenda (c : HaltCause) (w : Word) : (raise c w s).agenda = s.agenda := rfl
@[simp] theorem raise_turnsTaken (c : HaltCause) (w : Word) : (raise c w s).turnsTaken = s.turnsTaken := rfl
@[simp] theorem raise_presented (c : HaltCause) (w : Word) : (raise c w s).presented = s.presented := rfl

theorem advance_eq : s.advance = s.setPc (s.pc + 2) := rfl
theorem skip_eq : s.skip = s.setPc (s.pc + 2) := rfl
theorem rewind_eq : s.rewind = s.setPc (s.pc - 2) := rfl
theorem push_eq (w : Word) : s.push w = s.setStack (w :: s.stack) := rfl
theorem abandon_eq (c : HaltCause) (w : Word) : abandon c w s = raise c w (s.setPc (s.pc - 2)) := rfl
theorem skipIf_eq (c : Bool) : s.skipIf c = s.setPc (if c then s.pc + 2 else s.pc) := by
  cases c <;> rfl

/-- Undoing the advance of `PC` gives the state back (40_sequencer.md R85). -/
theorem rewind_advance : s.advance.rewind = s := by
  simp [rewind_eq, advance_eq, State.ext_iff]

end Sys2Proof.Machine
end

