-- ==== Sys2Proof/Laws/Registers.lean ====
section
/-! SUPPORT. The laws of the register file, of the flag write and of the register runs. -/

namespace Sys2Proof.Machine

variable (s : State)

theorem reg_eq (x : RegIx) : s.reg x = s.v[x] := rfl

@[simp] theorem reg_setReg_same (x : RegIx) (b : Byte) : (s.setReg x b).reg x = b := by
  simp [State.reg, State.setReg]

theorem reg_setReg_other {x r : RegIx} (b : Byte) (h : r ≠ x) : (s.setReg x b).reg r = s.reg r := by
  have : x.val ≠ r.val := fun e => h (Fin.ext e.symm)
  simp [State.reg, State.setReg, this]

theorem reg_setReg (x r : RegIx) (b : Byte) : (s.setReg x b).reg r = if r = x then b else s.reg r := by
  by_cases h : r = x
  · subst h; simp
  · simp [h, reg_setReg_other s b h]

/-- After a result and its flag: `VF` holds the flag (R12). -/
theorem reg_setResultFlag (x r : RegIx) (b : Byte) (f : Bool) :
    (s.setResultFlag x b f).reg r = if r = regF then flagByte f else if r = x then b else s.reg r := by
  simp [State.setResultFlag, reg_setReg]

/-- Writing a result and its flag changes registers only. -/
theorem setResultFlag_eq (x : RegIx) (b : Byte) (f : Bool) :
    s.setResultFlag x b f = { s with v := (s.setResultFlag x b f).v } := rfl

/-- Two states with the same registers, read one by one, have the same register file. -/
theorem v_ext {s t : State} (h : ∀ r, s.reg r = t.reg r) : s.v = t.v := by
  apply Vector.ext
  intro k hk
  simpa [State.reg] using h ⟨k, hk⟩

theorem regRun_length (x : RegIx) : (s.regRun x).length = x.val + 1 := by
  simp [State.regRun]

theorem regRun_getElem (x : RegIx) (j : Nat) (h : j < (s.regRun x).length) :
    (s.regRun x)[j] = s.reg ⟨j, by rw [regRun_length] at h; omega⟩ := by
  simp [State.regRun, State.reg]

/-- Loading a run of registers changes registers only. -/
theorem loadRegs_eq (j : Nat) (bytes : List Byte) :
    s.loadRegs j bytes = { s with v := (s.loadRegs j bytes).v } := by
  induction bytes generalizing s j with
  | nil => rfl
  | cons b rest ih =>
    rw [State.loadRegs]
    split
    · rw [ih]
      rfl
    · rw [ih]

/-- What each register holds after a run of loads. -/
theorem reg_loadRegs (j : Nat) (bytes : List Byte) (r : RegIx) :
    (s.loadRegs j bytes).reg r =
      if h : j ≤ r.val ∧ r.val < j + bytes.length then bytes[r.val - j]'(by omega) else s.reg r := by
  induction bytes generalizing s j with
  | nil =>
    rw [dif_neg (by simp)]
    rfl
  | cons b rest ih =>
    rw [State.loadRegs, ih]
    have hr := r.isLt
    have hlen : (b :: rest).length = rest.length + 1 := rfl
    by_cases h0 : r.val = j
    · have h16 : j < 16 := by omega
      have hrj : r = ⟨j, h16⟩ := Fin.ext h0
      have hin : j ≤ r.val ∧ r.val < j + (b :: rest).length := by omega
      rw [dif_neg (by omega), dif_pos h16, dif_pos hin, reg_setReg, if_pos hrj]
      simp [h0]
    · have hkeep : (if h : j < 16 then s.setReg ⟨j, h⟩ b else s).reg r = s.reg r := by
        split
        · exact reg_setReg_other s b fun e => h0 (by simp [e])
        · rfl
      rw [hkeep]
      by_cases h1 : j + 1 ≤ r.val ∧ r.val < j + 1 + rest.length
      · have hin : j ≤ r.val ∧ r.val < j + (b :: rest).length := by omega
        have hs : r.val - j = (r.val - (j + 1)) + 1 := by omega
        rw [dif_pos h1, dif_pos hin]
        simp [hs]
      · have hout : ¬(j ≤ r.val ∧ r.val < j + (b :: rest).length) := by omega
        rw [dif_neg h1, dif_neg hout]

theorem advanceIndex_eq (x : RegIx) : s.advanceIndex x = { s with i := (s.advanceIndex x).i } := by
  unfold State.advanceIndex
  split <;> rfl

@[simp] theorem advanceIndex_i (x : RegIx) :
    (s.advanceIndex x).i = if s.legacy then s.i + BitVec.ofNat 16 (x.val + 1) else s.i := by
  unfold State.advanceIndex
  split <;> rfl

end Sys2Proof.Machine
end

