-- ==== Sys2Proof/Laws/Access.lean ====
section
/-! SUPPORT. What a data access and a fetch can do. -/

namespace Sys2Proof.Machine

variable (s : State)

/-- The run is in range: it has no byte, or its last address is at most 0xFFF (R44 to R46). -/
theorem rangeFault_none {addr count : Nat} (h : count = 0 ∨ addr + count ≤ 0x1000) : rangeFault addr count = none := by
  unfold rangeFault
  rw [if_neg (by omega)]

/-- The run is out of range, and the fault names its first address above 0xFFF. -/
theorem rangeFault_some {addr count : Nat} (h0 : 0 < count) (h : 0x1000 < addr + count) :
    rangeFault addr count = some (BitVec.ofNat 16 (max addr 0x1000)) := by
  unfold rangeFault
  rw [if_pos (by omega)]

theorem memRead_ok {addr n : Nat} (h : n = 0 ∨ addr + n ≤ 0x1000) :
    memRead addr n s = .ok ((List.range n).map fun j => s.mem.read (addr + j)) := by
  simp [memRead, rangeFault_none h]

theorem memWrite_ok {addr : Nat} {bytes : List Byte} (h : bytes.length = 0 ∨ addr + bytes.length ≤ 0x1000) :
    memWrite addr bytes s = .ok (s.setMem (s.mem.writeAll addr bytes)) := by
  simp [memWrite, rangeFault_none h]

theorem memRead_error {addr n : Nat} (h0 : 0 < n) (h : 0x1000 < addr + n) :
    memRead addr n s = .error (BitVec.ofNat 16 (max addr 0x1000)) := by
  simp [memRead, rangeFault_some h0 h]

theorem memWrite_error {addr : Nat} {bytes : List Byte} (h0 : 0 < bytes.length) (h : 0x1000 < addr + bytes.length) :
    memWrite addr bytes s = .error (BitVec.ofNat 16 (max addr 0x1000)) := by
  simp [memWrite, rangeFault_some h0 h]

@[simp] theorem afterAccess_ok {α : Type} (a : α) (k : α → State) : afterAccess s (.ok a) k = .next (k a) := rfl

@[simp] theorem afterAccess_error {α : Type} (w : Word) (k : α → State) :
    afterAccess s (.error w) k = .next (abandon .dataOutOfRange w s) := rfl

@[simp] theorem bcdDigits_length (a : Byte) : (bcdDigits a).length = 3 := rfl

/-- A fetch reads `PC` and memory and nothing else. -/
theorem fetch_congr {s t : State} (hpc : s.pc = t.pc) (hm : s.mem = t.mem) : fetch s = fetch t := by
  simp [fetch, hpc, hm]

theorem fetch_ok (h : s.pc.toNat ≤ 0xFFE) :
    fetch s = .ok (s.mem.read s.pc.toNat ++ s.mem.read (s.pc.toNat + 1)) := by
  unfold fetch
  rw [if_neg (by omega)]

theorem fetch_error (h : 0xFFE < s.pc.toNat) : fetch s = .error s.pc := by
  unfold fetch
  rw [if_pos h]

/-- A fetch that answers a word had both bytes in range (R81). -/
theorem fetch_ok_range {s : State} {w : Word} (h : fetch s = .ok w) : s.pc.toNat ≤ 0xFFE := by
  by_contra hn
  rw [fetch_error s (by omega)] at h
  cases h

end Sys2Proof.Machine
end

