-- ==== Sys2Proof/Laws/Encoding.lean ====
section
/-! SUPPORT. The bits and the fields of a packed word, and the word of two bytes. -/

namespace Sys2Proof

section Bits

variable (op n : Nibble) (x y : RegIx) (nn : Byte) (nnn : Addr12) (k : Nat)

theorem getLsbD_packNNN :
    (packNNN op nnn).getLsbD k = if k < 12 then nnn.getLsbD k else op.getLsbD (k - 12) :=
  BitVec.getLsbD_append

theorem getLsbD_packXNN :
    (packXNN op x nn).getLsbD k =
      if k < 8 then nn.getLsbD k
      else if k - 8 < 4 then (BitVec.ofFin (w := 4) x).getLsbD (k - 8) else op.getLsbD (k - 8 - 4) := by
  rw [show (packXNN op x nn).getLsbD k = if k < 8 then nn.getLsbD k
    else (op ++ BitVec.ofFin (w := 4) x).getLsbD (k - 8) from BitVec.getLsbD_append, BitVec.getLsbD_append]

theorem getLsbD_packXYN :
    (packXYN op x y n).getLsbD k =
      if k < 4 then n.getLsbD k
      else if k - 4 < 4 then (BitVec.ofFin (w := 4) y).getLsbD (k - 4)
      else if k - 4 - 4 < 4 then (BitVec.ofFin (w := 4) x).getLsbD (k - 4 - 4) else op.getLsbD (k - 4 - 4 - 4) := by
  rw [show (packXYN op x y n).getLsbD k = if k < 4 then n.getLsbD k
    else (op ++ BitVec.ofFin (w := 4) x ++ BitVec.ofFin (w := 4) y).getLsbD (k - 4) from BitVec.getLsbD_append,
    BitVec.getLsbD_append, BitVec.getLsbD_append]

theorem getLsbD_wordOfBytes (hi lo : Byte) :
    (wordOfBytes hi lo).getLsbD k = if k < 8 then lo.getLsbD k else hi.getLsbD (k - 8) :=
  BitVec.getLsbD_append

end Bits

/-- Four bits taken out of a word, given as a register number, are its bits. -/
theorem toFin_extract_eq {w : Word} {start : Nat} {x : RegIx}
    (h : ∀ k, k < 4 → w.getLsbD (start + k) = (BitVec.ofFin (w := 4) x).getLsbD k) :
    (w.extractLsb' start 4).toFin = x := by
  have : w.extractLsb' start 4 = BitVec.ofFin (w := 4) x := by
    apply BitVec.eq_of_getLsbD_eq
    intro k hk
    simp only [BitVec.getLsbD_extractLsb', hk, decide_true, Bool.true_and]
    exact h k hk
  rw [this]

/-- A field taken out of a word is its bits. -/
theorem extract_eq {w : Word} {start len : Nat} {b : BitVec len}
    (h : ∀ k, k < len → w.getLsbD (start + k) = b.getLsbD k) : w.extractLsb' start len = b := by
  apply BitVec.eq_of_getLsbD_eq
  intro k hk
  simp only [BitVec.getLsbD_extractLsb', hk, decide_true, Bool.true_and]
  exact h k hk

section Fields

variable (op n : Nibble) (x y : RegIx) (nn : Byte) (nnn : Addr12)

@[simp] theorem fieldOp_packXYN : fieldOp (packXYN op x y n) = op := by
  refine extract_eq fun k hk => ?_
  rw [getLsbD_packXYN, if_neg (by omega), if_neg (by omega), if_neg (by omega)]
  congr 1; omega

@[simp] theorem fieldX_packXYN : fieldX (packXYN op x y n) = x := by
  refine toFin_extract_eq fun k hk => ?_
  rw [getLsbD_packXYN, if_neg (by omega), if_neg (by omega), if_pos (by omega)]
  congr 1; omega

@[simp] theorem fieldY_packXYN : fieldY (packXYN op x y n) = y := by
  refine toFin_extract_eq fun k hk => ?_
  rw [getLsbD_packXYN, if_neg (by omega), if_pos (by omega)]
  congr 1; omega

@[simp] theorem fieldN_packXYN : fieldN (packXYN op x y n) = n := by
  refine extract_eq fun k hk => ?_
  rw [getLsbD_packXYN, if_pos (by omega)]
  congr 1; omega

@[simp] theorem fieldOp_packXNN : fieldOp (packXNN op x nn) = op := by
  refine extract_eq fun k hk => ?_
  rw [getLsbD_packXNN, if_neg (by omega), if_neg (by omega)]
  congr 1; omega

@[simp] theorem fieldX_packXNN : fieldX (packXNN op x nn) = x := by
  refine toFin_extract_eq fun k hk => ?_
  rw [getLsbD_packXNN, if_neg (by omega), if_pos (by omega)]
  congr 1; omega

@[simp] theorem fieldNN_packXNN : fieldNN (packXNN op x nn) = nn := by
  refine extract_eq fun k hk => ?_
  rw [getLsbD_packXNN, if_pos (by omega)]
  congr 1; omega

@[simp] theorem fieldOp_packNNN : fieldOp (packNNN op nnn) = op := by
  refine extract_eq fun k hk => ?_
  rw [getLsbD_packNNN, if_neg (by omega)]
  congr 1; omega

@[simp] theorem fieldNNN_packNNN : fieldNNN (packNNN op nnn) = nnn := by
  refine extract_eq fun k hk => ?_
  rw [getLsbD_packNNN, if_pos (by omega)]
  congr 1; omega

end Fields

/-- A word is its high byte and its low byte (20_memory.md R47). -/
@[simp] theorem wordOfBytes_bytes (w : Word) : wordOfBytes (highByte w) (lowByte w) = w := by
  apply BitVec.eq_of_getLsbD_eq
  intro k hk
  rw [getLsbD_wordOfBytes]
  unfold highByte lowByte
  by_cases h : k < 8
  · rw [if_pos h]
    simp [h]
  · have h8 : 8 + (k - 8) = k := by omega
    have hlt : k - 8 < 8 := by omega
    rw [if_neg h]
    simp [h8, hlt]

/-- Decoding the two bytes of a word is decoding the word. -/
theorem decode_bytes (w : Word) (rest : List Byte) :
    decode (highByte w :: lowByte w :: rest) = (decodeWord w).map fun i => (i, rest) := by
  simp only [decode, wordOfBytes_bytes]
  cases decodeWord w <;> rfl

/-- Decoding the encoding of an instruction is decoding its word. -/
theorem decode_encode_word (i : Instr) : decode (encode i) = (decodeWord (encodeWord i)).map fun j => (j, []) :=
  decode_bytes (encodeWord i) []

/-- A word is its field `op` and its field `NNN` (R61). -/
theorem packNNN_fields (w : Word) : packNNN (fieldOp w) (fieldNNN w) = w := by
  apply BitVec.eq_of_getLsbD_eq
  intro k hk
  rw [getLsbD_packNNN]
  unfold fieldOp fieldNNN
  by_cases h : k < 12
  · rw [if_pos h]
    simp [h]
  · have h12 : 12 + (k - 12) = k := by omega
    have hlt : k - 12 < 4 := by omega
    rw [if_neg h]
    simp [h12, hlt]

/-- A word is its fields `op`, `X` and `NN` (R61). -/
theorem packXNN_fields (w : Word) : packXNN (fieldOp w) (fieldX w) (fieldNN w) = w := by
  apply BitVec.eq_of_getLsbD_eq
  intro k hk
  rw [getLsbD_packXNN]
  unfold fieldOp fieldX fieldNN
  by_cases h : k < 8
  · rw [if_pos h]
    simp [h]
  · by_cases h2 : k - 8 < 4
    · have e : 8 + (k - 8) = k := by omega
      rw [if_neg h, if_pos h2]
      exact (by simp [e, h2] : (w.extractLsb' 8 4).getLsbD (k - 8) = w.getLsbD k)
    · have e : 12 + (k - 8 - 4) = k := by omega
      have hlt : k - 8 - 4 < 4 := by omega
      rw [if_neg h, if_neg h2]
      simp [e, hlt]

/-- A word is its fields `op`, `X`, `Y` and `N` (R61). -/
theorem packXYN_fields (w : Word) : packXYN (fieldOp w) (fieldX w) (fieldY w) (fieldN w) = w := by
  apply BitVec.eq_of_getLsbD_eq
  intro k hk
  rw [getLsbD_packXYN]
  unfold fieldOp fieldX fieldY fieldN
  by_cases h : k < 4
  · rw [if_pos h]
    simp [h]
  · by_cases h2 : k - 4 < 4
    · have e : 4 + (k - 4) = k := by omega
      rw [if_neg h, if_pos h2]
      exact (by simp [e, h2] : (w.extractLsb' 4 4).getLsbD (k - 4) = w.getLsbD k)
    · by_cases h3 : k - 4 - 4 < 4
      · have e : 8 + (k - 4 - 4) = k := by omega
        rw [if_neg h, if_neg h2, if_pos h3]
        exact (by simp [e, h3] : (w.extractLsb' 8 4).getLsbD (k - 4 - 4) = w.getLsbD k)
      · have e : 12 + (k - 4 - 4 - 4) = k := by omega
        have hlt : k - 4 - 4 - 4 < 4 := by omega
        rw [if_neg h, if_neg h2, if_neg h3]
        simp [e, hlt]

/-- The bits a mask of the opcode map keeps: the bits of `op` (R67). -/
theorem and_maskOp (w : Word) : w &&& 0xF000 = packNNN (fieldOp w) 0 := by
  rw [← packNNN_fields w, fieldOp_packNNN]
  generalize fieldOp w = op
  generalize fieldNNN w = nnn
  apply BitVec.eq_of_getLsbD_eq
  intro k hk
  rw [BitVec.getLsbD_and, getLsbD_packNNN, getLsbD_packNNN]
  interval_cases k <;> simp

/-- The bits of `op` and `N` (R67). -/
theorem and_maskOpN (w : Word) : w &&& 0xF00F = packXYN (fieldOp w) 0 0 (fieldN w) := by
  rw [← packXYN_fields w, fieldOp_packXYN, fieldN_packXYN]
  generalize fieldOp w = op
  generalize fieldX w = x
  generalize fieldY w = y
  generalize fieldN w = n
  apply BitVec.eq_of_getLsbD_eq
  intro k hk
  rw [BitVec.getLsbD_and, getLsbD_packXYN, getLsbD_packXYN]
  interval_cases k <;> simp

/-- The bits of `op` and `NN` (R67). -/
theorem and_maskOpNN (w : Word) : w &&& 0xF0FF = packXNN (fieldOp w) 0 (fieldNN w) := by
  rw [← packXNN_fields w, fieldOp_packXNN, fieldNN_packXNN]
  generalize fieldOp w = op
  generalize fieldX w = x
  generalize fieldNN w = nn
  apply BitVec.eq_of_getLsbD_eq
  intro k hk
  rw [BitVec.getLsbD_and, getLsbD_packXNN, getLsbD_packXNN]
  interval_cases k <;> simp

/-- A word of the row with mask 0xF000 is one with its `op` (R67). -/
theorem match_op (w : Word) (op : Nibble) : w &&& 0xF000 = packNNN op 0 ↔ fieldOp w = op := by
  rw [and_maskOp]
  exact ⟨fun h => by simpa using congrArg fieldOp h, fun h => by rw [h]⟩

/-- A word of a row with mask 0xF00F is one with its `op` and its `N` (R67). -/
theorem match_opN (w : Word) (op n : Nibble) : w &&& 0xF00F = packXYN op 0 0 n ↔ fieldOp w = op ∧ fieldN w = n := by
  rw [and_maskOpN]
  exact ⟨fun h => ⟨by simpa using congrArg fieldOp h, by simpa using congrArg fieldN h⟩, fun h => by rw [h.1, h.2]⟩

/-- A word of a row with mask 0xF0FF is one with its `op` and its `NN` (R67). -/
theorem match_opNN (w : Word) (op : Nibble) (nn : Byte) :
    w &&& 0xF0FF = packXNN op 0 nn ↔ fieldOp w = op ∧ fieldNN w = nn := by
  rw [and_maskOpNN]
  exact ⟨fun h => ⟨by simpa using congrArg fieldOp h, by simpa using congrArg fieldNN h⟩, fun h => by rw [h.1, h.2]⟩

/-- A word of a row with mask 0xFFFF (R67). -/
theorem match_all (w : Word) (op : Nibble) (nnn : Addr12) :
    w &&& 0xFFFF = packNNN op nnn ↔ fieldOp w = op ∧ fieldNNN w = nnn := by
  rw [show w &&& 0xFFFF = w from BitVec.and_allOnes]
  constructor
  · rintro rfl
    simp
  · rintro ⟨rfl, rfl⟩
    exact (packNNN_fields w).symm

/-- `fieldOp` is below 16, so the last arm of the primary dispatch is 0xF (R65). -/
theorem fieldOp_toNat_lt (w : Word) : (fieldOp w).toNat < 16 := (fieldOp w).isLt

end Sys2Proof
end

