-- ==== Sys2Proof/Laws/Framebuffer.lean ====
section
/-! SUPPORT. The framebuffer pixel by pixel, and what an XOR-blit does to it. -/

namespace Sys2Proof.Machine.Framebuffer

variable (f : Framebuffer)

theorem pixel_inside {x y : Nat} (hx : x < 64) (hy : y < 32) : f.pixel x y = f[y][x] := by
  simp [pixel, hx, hy]

theorem pixel_outside {x y : Nat} (h : ¬(x < 64 ∧ y < 32)) : f.pixel x y = false := by
  simp [pixel, h]

@[simp] theorem pixel_clear (x y : Nat) : clear.pixel x y = false := by
  by_cases h : x < 64 ∧ y < 32
  · simp [clear, pixel_inside _ h.1 h.2]
  · exact pixel_outside _ h

theorem pixel_flip (x y px py : Nat) :
    (f.flip px py).pixel x y =
      if x = px ∧ y = py ∧ px < 64 ∧ py < 32 then !f.pixel x y else f.pixel x y := by
  by_cases hp : px < 64 ∧ py < 32
  · by_cases h : x < 64 ∧ y < 32
    · rw [pixel_inside _ h.1 h.2, pixel_inside _ h.1 h.2]
      simp only [flip, dif_pos hp, Vector.getElem_set]
      by_cases hy : py = y
      · subst hy
        by_cases hx : px = x
        · subst hx; simp [hp]
        · simp [hx, Ne.symm hx]
      · simp [hy, Ne.symm hy]
    · rw [pixel_outside _ h, pixel_outside _ h, if_neg]
      rintro ⟨rfl, rfl, h3⟩
      exact h h3
  · have : f.flip px py = f := by simp [flip, hp]
    rw [this, if_neg (by tauto)]

/-- Framebuffers that agree on every pixel are equal. -/
theorem ext_pixel {f g : Framebuffer} (h : ∀ x y, x < 64 → y < 32 → f.pixel x y = g.pixel x y) : f = g := by
  apply Vector.ext
  intro y hy
  apply Vector.ext
  intro x hx
  have := h x y hx hy
  rwa [pixel_inside _ hx hy, pixel_inside _ hx hy] at this

end Sys2Proof.Machine.Framebuffer

namespace Sys2Proof.Machine

/-- Blitting a list of different pixels, all on the screen: each is flipped, no other is, and `hit` says whether one of
them was on. -/
theorem foldl_drawPixel (ps : List (Nat × Nat)) (hnd : ps.Nodup) (hin : ∀ p ∈ ps, p.1 < 64 ∧ p.2 < 32)
    (acc : Framebuffer × Bool) :
    (∀ x y, (ps.foldl drawPixel acc).1.pixel x y = (acc.1.pixel x y ^^ decide ((x, y) ∈ ps))) ∧
      (ps.foldl drawPixel acc).2 = (acc.2 || ps.any fun p => acc.1.pixel p.1 p.2) := by
  induction ps generalizing acc with
  | nil => simp
  | cons p rest ih =>
    have hn := List.nodup_cons.1 hnd
    have hp := hin p (by simp)
    obtain ⟨h1, h2⟩ := ih hn.2 (fun q hq => hin q (by simp [hq])) (drawPixel acc p)
    constructor
    · intro x y
      rw [List.foldl_cons, h1]
      simp only [drawPixel, Framebuffer.pixel_flip]
      by_cases e : (x, y) = p
      · subst e
        simp [hp, hn.1]
      · have : ¬(x = p.1 ∧ y = p.2 ∧ p.1 < 64 ∧ p.2 < 32) := fun h => e (Prod.ext h.1 h.2.1)
        rw [if_neg this]
        simp [e]
    · rw [List.foldl_cons, h2]
      have : (rest.any fun q => (drawPixel acc p).1.pixel q.1 q.2) = rest.any fun q => acc.1.pixel q.1 q.2 := by
        have key : ∀ q ∈ rest, (drawPixel acc p).1.pixel q.1 q.2 = acc.1.pixel q.1 q.2 := by
          intro q hq
          simp only [drawPixel, Framebuffer.pixel_flip]
          rw [if_neg]
          rintro ⟨e1, e2, -⟩
          exact hn.1 (by rwa [← (Prod.ext e1 e2 : q = p)])
        rw [Bool.eq_iff_iff, List.any_eq_true, List.any_eq_true]
        exact exists_congr fun q => and_congr_right fun hq => by rw [key q hq]
      rw [this]
      simp [drawPixel, Bool.or_assoc]

/-- Which pixels a sprite sets: those on the screen whose bit of the byte of their row is 1. -/
theorem mem_spritePixels {x0 y0 x y : Nat} {bytes : List Byte} :
    (x, y) ∈ spritePixels x0 y0 bytes ↔
      ∃ r c b, bytes[r]? = some b ∧ c < 8 ∧ b.getMsbD c = true ∧ x = x0 + c ∧ y = y0 + r ∧ x ≤ 63 ∧ y ≤ 31 := by
  unfold spritePixels
  simp only [List.mem_flatMap, List.mem_filterMap, List.mem_range, Prod.exists]
  constructor
  · rintro ⟨b, r, hbr, c, hc, h⟩
    split at h
    · rename_i hcond
      cases h
      exact ⟨r, c, b, by simpa using List.mem_zipIdx_iff_getElem?.1 hbr, hc, hcond.1, rfl, rfl, hcond.2.1, hcond.2.2⟩
    · cases h
  · rintro ⟨r, c, b, hb, hc, hbit, rfl, rfl, hx, hy⟩
    exact ⟨b, r, List.mem_zipIdx_iff_getElem?.2 (by simpa using hb), c, hc, by simp [hbit, hx, hy]⟩

/-- "No pixel is visited twice in one `DXYN`" (R132 (c)). -/
theorem nodup_spritePixels (x0 y0 : Nat) (bytes : List Byte) : (spritePixels x0 y0 bytes).Nodup := by
  unfold spritePixels
  rw [List.nodup_flatMap]
  constructor
  · intro br _
    refine List.Nodup.filterMap ?_ List.nodup_range
    intro c d p hc hd
    simp only [Option.mem_def] at hc hd
    split at hc <;> split at hd <;> simp_all
    subst hc
    have := congrArg Prod.fst hd
    simp at this
    omega
  · rw [List.pairwise_iff_getElem]
    intro m n hm hn hmn
    simp only [Function.onFun, List.getElem_zipIdx, List.disjoint_left, List.mem_filterMap]
    rintro p ⟨c, -, hc⟩ ⟨d, -, hd⟩
    split at hc <;> split at hd <;> simp_all
    subst hc
    have := congrArg Prod.snd hd
    simp at this
    omega

theorem spritePixels_inside {x0 y0 : Nat} {bytes : List Byte} {p : Nat × Nat} (h : p ∈ spritePixels x0 y0 bytes) :
    p.1 < 64 ∧ p.2 < 32 := by
  obtain ⟨x, y⟩ := p
  obtain ⟨_, _, _, _, _, _, _, _, h1, h2⟩ := mem_spritePixels.1 h
  exact ⟨by simpa using Nat.lt_succ_of_le h1, by simpa using Nat.lt_succ_of_le h2⟩

/-- What the XOR-blit does to every pixel. -/
theorem pixel_drawSprite (f : Framebuffer) (x0 y0 : Nat) (bytes : List Byte) (x y : Nat) :
    (drawSprite f x0 y0 bytes).1.pixel x y = (f.pixel x y ^^ decide ((x, y) ∈ spritePixels x0 y0 bytes)) :=
  (foldl_drawPixel _ (nodup_spritePixels x0 y0 bytes) (fun _ h => spritePixels_inside h) (f, false)).1 x y

/-- When the XOR-blit reports a hit. -/
theorem hit_drawSprite (f : Framebuffer) (x0 y0 : Nat) (bytes : List Byte) :
    (drawSprite f x0 y0 bytes).2 = (spritePixels x0 y0 bytes).any fun p => f.pixel p.1 p.2 := by
  simpa [drawSprite] using (foldl_drawPixel _ (nodup_spritePixels x0 y0 bytes) (fun _ h => spritePixels_inside h) (f, false)).2

end Sys2Proof.Machine
end

