-- ==== Sys2Proof/Laws/Exec.lean ====
section
/-! SUPPORT. What the execute phase can do, whatever the instruction. -/

namespace Sys2Proof.Machine

/-- The execute phase of every instruction answers a next state. -/
theorem exec_next (i : Instr) (s : State) : ∃ t, exec i s = .next t := by
  have access : ∀ {α : Type} (r : Except Word α) (k : α → State), ∃ t, afterAccess s r k = .next t := by
    intro α r k
    cases r <;> exact ⟨_, rfl⟩
  cases i
  case op00EE =>
    cases h : s.stack <;> simp [exec, exec00EE, h]
  case opDXYN => exact access _ _
  case opFX33 => exact access _ _
  case opFX55 => exact access _ _
  case opFX65 => exact access _ _
  case opEX9E x =>
    cases h : s.testedKey x <;> simp [exec, execEX9E, h]
  case opEXA1 x =>
    cases h : s.testedKey x <;> simp [exec, execEXA1, h]
  case opFX0A =>
    cases h : s.leastKey <;> simp [exec, execFX0A, h]
  all_goals exact ⟨_, rfl⟩

/-- The fields no instruction touches: the mode, the latch, the frame clock, the time, the inputs and the output. The due
time of the sequencer is charged by the step, not by the instruction. -/
structure SameOutside (s t : State) : Prop where
  legacy : t.legacy = s.legacy
  keys : t.keys = s.keys
  nextCycleDue : t.nextCycleDue = s.nextCycleDue
  nextFrameDue : t.nextFrameDue = s.nextFrameDue
  now : t.now = s.now
  rnd : t.rnd = s.rnd
  agenda : t.agenda = s.agenda
  turnsTaken : t.turnsTaken = s.turnsTaken
  presented : t.presented = s.presented

theorem sameOutside_rfl (s : State) : SameOutside s s := ⟨rfl, rfl, rfl, rfl, rfl, rfl, rfl, rfl, rfl⟩

theorem sameOutside_loadRegs (s : State) (j : Nat) (bytes : List Byte) : SameOutside s (s.loadRegs j bytes) := by
  rw [loadRegs_eq]
  exact ⟨rfl, rfl, rfl, rfl, rfl, rfl, rfl, rfl, rfl⟩

theorem sameOutside_advanceIndex {s t : State} (x : RegIx) (h : SameOutside s t) : SameOutside s (t.advanceIndex x) := by
  rw [advanceIndex_eq]
  exact ⟨h.legacy, h.keys, h.nextCycleDue, h.nextFrameDue, h.now, h.rnd, h.agenda, h.turnsTaken, h.presented⟩

/-- The execute phase leaves those fields alone. -/
theorem exec_sameOutside {i : Instr} {s t : State} (h : exec i s = .next t) : SameOutside s t := by
  have trivially : SameOutside s s := sameOutside_rfl s
  cases i
  case op00EE =>
    cases hs : s.stack <;> simp [exec, exec00EE, hs] at h <;> subst h <;> exact ⟨rfl, rfl, rfl, rfl, rfl, rfl, rfl, rfl, rfl⟩
  case opDXYN x y n =>
    simp only [exec, execDXYN] at h
    cases hr : memRead s.i.toNat n s <;> rw [hr] at h <;> simp at h <;> subst h <;>
      exact ⟨rfl, rfl, rfl, rfl, rfl, rfl, rfl, rfl, rfl⟩
  case opFX33 x =>
    simp only [exec, execFX33, memWrite] at h
    split at h <;> simp at h <;> subst h <;> exact ⟨rfl, rfl, rfl, rfl, rfl, rfl, rfl, rfl, rfl⟩
  case opFX55 x =>
    simp only [exec, execFX55, memWrite] at h
    split at h <;> simp at h <;> subst h
    · exact ⟨rfl, rfl, rfl, rfl, rfl, rfl, rfl, rfl, rfl⟩
    · exact sameOutside_advanceIndex x ⟨rfl, rfl, rfl, rfl, rfl, rfl, rfl, rfl, rfl⟩
  case opFX65 x =>
    simp only [exec, execFX65] at h
    cases hr : memRead s.i.toNat (x.val + 1) s <;> rw [hr] at h <;> simp at h <;> subst h
    · exact ⟨rfl, rfl, rfl, rfl, rfl, rfl, rfl, rfl, rfl⟩
    · exact sameOutside_advanceIndex x (sameOutside_loadRegs s 0 _)
  case opEX9E x =>
    cases hk : s.testedKey x <;> simp [exec, execEX9E, hk, skipIf_eq] at h <;> subst h <;>
      exact ⟨rfl, rfl, rfl, rfl, rfl, rfl, rfl, rfl, rfl⟩
  case opEXA1 x =>
    cases hk : s.testedKey x <;> simp [exec, execEXA1, hk, skipIf_eq] at h <;> subst h <;>
      exact ⟨rfl, rfl, rfl, rfl, rfl, rfl, rfl, rfl, rfl⟩
  case opFX0A x =>
    cases hk : s.leastKey <;> simp [exec, execFX0A, hk] at h <;> subst h <;>
      exact ⟨rfl, rfl, rfl, rfl, rfl, rfl, rfl, rfl, rfl⟩
  case opFX1E x =>
    simp only [exec, execFX1E] at h
    split at h <;> simp at h <;> subst h <;> exact ⟨rfl, rfl, rfl, rfl, rfl, rfl, rfl, rfl, rfl⟩
  all_goals
    simp [exec, exec00E0, exec1NNN, exec2NNN, exec3XNN, exec4XNN, exec5XY0, exec6XNN, exec7XNN, exec8XY0, exec8XY1,
      exec8XY2, exec8XY3, exec8XY4, exec8XY5, exec8XY6, exec8XY7, exec8XYE, exec9XY0, execANNN, execBNNN, execCXNN,
      execFX07, execFX15, execFX18, execFX29, skipIf_eq] at h
    subst h
    exact ⟨rfl, rfl, rfl, rfl, rfl, rfl, rfl, rfl, rfl⟩

/-- The fault registers after the execute phase: as before it, or those of the one fault the instruction can raise, in a
state otherwise that of before the step (60_exceptions.md R172, R174, R176). -/
theorem exec_fault_cases {i : Instr} {s t : State} (h : exec i s = .next t) :
    (t.halted = s.halted ∧ t.haltCause = s.haltCause ∧ t.haltInfo = s.haltInfo) ∨
      (i = .op00EE ∧ s.stack = [] ∧ t = abandon .stackUnderflow 0x00EE s) ∨
      (0 < accessCount i ∧ 0x1000 < s.i.toNat + accessCount i ∧
        t = abandon .dataOutOfRange (BitVec.ofNat 16 (max s.i.toNat 0x1000)) s) := by
  cases i
  case op00EE =>
    cases hs : s.stack <;> simp [exec, exec00EE, hs] at h <;> subst h
    · exact .inr (.inl ⟨rfl, rfl, rfl⟩)
    · exact .inl ⟨rfl, rfl, rfl⟩
  case opDXYN x y n =>
    simp only [exec, execDXYN] at h
    by_cases hr : n = 0 ∨ s.i.toNat + n ≤ 0x1000
    · rw [memRead_ok s hr] at h
      simp at h
      subst h
      exact .inl ⟨rfl, rfl, rfl⟩
    · rw [memRead_error s (by omega) (by omega)] at h
      simp at h
      exact .inr (.inr ⟨by simp [accessCount]; omega, by simp [accessCount]; omega, h.symm⟩)
  case opFX33 x =>
    simp only [exec, execFX33] at h
    by_cases hr : s.i.toNat + 3 ≤ 0x1000
    · rw [memWrite_ok s (by simp; omega)] at h
      simp at h
      subst h
      exact .inl ⟨rfl, rfl, rfl⟩
    · rw [memWrite_error s (by simp) (by simp; omega)] at h
      simp at h
      exact .inr (.inr ⟨by simp [accessCount], by simp [accessCount]; omega, h.symm⟩)
  case opFX55 x =>
    simp only [exec, execFX55] at h
    have hlen := regRun_length s x
    by_cases hr : s.i.toNat + (x.val + 1) ≤ 0x1000
    · rw [memWrite_ok s (by omega)] at h
      simp at h
      subst h
      rw [advanceIndex_eq]
      exact .inl ⟨rfl, rfl, rfl⟩
    · rw [memWrite_error s (by omega) (by omega)] at h
      simp at h
      exact .inr (.inr ⟨by simp [accessCount], by simp [accessCount]; omega, h.symm⟩)
  case opFX65 x =>
    simp only [exec, execFX65] at h
    by_cases hr : s.i.toNat + (x.val + 1) ≤ 0x1000
    · rw [memRead_ok s (by omega)] at h
      simp only [afterAccess_ok, Host.Outcome.next.injEq] at h
      subst h
      rw [advanceIndex_eq, loadRegs_eq]
      exact .inl ⟨rfl, rfl, rfl⟩
    · rw [memRead_error s (by omega) (by omega)] at h
      simp at h
      exact .inr (.inr ⟨by simp [accessCount], by simp [accessCount]; omega, h.symm⟩)
  case opEX9E x =>
    cases hk : s.testedKey x <;> simp [exec, execEX9E, hk, skipIf_eq] at h <;> subst h <;> exact .inl ⟨rfl, rfl, rfl⟩
  case opEXA1 x =>
    cases hk : s.testedKey x <;> simp [exec, execEXA1, hk, skipIf_eq] at h <;> subst h <;> exact .inl ⟨rfl, rfl, rfl⟩
  case opFX0A x =>
    cases hk : s.leastKey <;> simp [exec, execFX0A, hk] at h <;> subst h <;> exact .inl ⟨rfl, rfl, rfl⟩
  case opFX1E x =>
    simp only [exec, execFX1E] at h
    split at h <;> simp at h <;> subst h <;> exact .inl ⟨rfl, rfl, rfl⟩
  all_goals
    simp [exec, exec00E0, exec1NNN, exec2NNN, exec3XNN, exec4XNN, exec5XY0, exec6XNN, exec7XNN, exec8XY0, exec8XY1,
      exec8XY2, exec8XY3, exec8XY4, exec8XY5, exec8XY6, exec8XY7, exec8XYE, exec9XY0, execANNN, execBNNN, execCXNN,
      execFX07, execFX15, execFX18, execFX29, skipIf_eq] at h
    subst h
    exact .inl ⟨rfl, rfl, rfl⟩

/-- Memory after the execute phase: as before, or after a run of writes of `FX33` or `FX55` (20_memory.md R42). -/
theorem exec_mem_cases {i : Instr} {s t : State} (h : exec i s = .next t) :
    t.mem = s.mem ∨ ((i.tag = .tFX33 ∨ i.tag = .tFX55) ∧ ∃ a bytes, t.mem = s.mem.writeAll a bytes) := by
  cases i
  case op00EE => cases hs : s.stack <;> simp [exec, exec00EE, hs] at h <;> subst h <;> exact .inl rfl
  case opDXYN x y n =>
    simp only [exec, execDXYN] at h
    cases hr : memRead s.i.toNat n s <;> rw [hr] at h <;> simp at h <;> subst h <;> exact .inl rfl
  case opFX33 x =>
    simp only [exec, execFX33, memWrite] at h
    split at h <;> simp at h <;> subst h
    · exact .inl rfl
    · exact .inr ⟨.inl rfl, _, _, rfl⟩
  case opFX55 x =>
    simp only [exec, execFX55, memWrite] at h
    split at h <;> simp at h <;> subst h
    · exact .inl rfl
    · rw [advanceIndex_eq]
      exact .inr ⟨.inr rfl, _, _, rfl⟩
  case opFX65 x =>
    simp only [exec, execFX65] at h
    cases hr : memRead s.i.toNat (x.val + 1) s <;> rw [hr] at h <;> simp at h <;> subst h
    · exact .inl rfl
    · rw [advanceIndex_eq, loadRegs_eq]
      exact .inl rfl
  case opEX9E x =>
    cases hk : s.testedKey x <;> simp [exec, execEX9E, hk, skipIf_eq] at h <;> subst h <;> exact .inl rfl
  case opEXA1 x =>
    cases hk : s.testedKey x <;> simp [exec, execEXA1, hk, skipIf_eq] at h <;> subst h <;> exact .inl rfl
  case opFX0A x => cases hk : s.leastKey <;> simp [exec, execFX0A, hk] at h <;> subst h <;> exact .inl rfl
  case opFX1E x =>
    simp only [exec, execFX1E] at h
    split at h <;> simp at h <;> subst h <;> exact .inl rfl
  all_goals
    simp [exec, exec00E0, exec1NNN, exec2NNN, exec3XNN, exec4XNN, exec5XY0, exec6XNN, exec7XNN, exec8XY0, exec8XY1,
      exec8XY2, exec8XY3, exec8XY4, exec8XY5, exec8XY6, exec8XY7, exec8XYE, exec9XY0, execANNN, execBNNN, execCXNN,
      execFX07, execFX15, execFX18, execFX29, skipIf_eq] at h
    subst h
    exact .inl rfl

/-- The stack after the execute phase: as before, one pushed by `2NNN`, or one popped by `00EE` (10_state.md R15). -/
theorem exec_stack_cases {i : Instr} {s t : State} (h : exec i s = .next t) :
    t.stack = s.stack ∨ (i.tag = .t2NNN ∧ t.stack = s.pc :: s.stack) ∨ (i = .op00EE ∧ ∃ top, s.stack = top :: t.stack) := by
  cases i
  case op00EE =>
    cases hs : s.stack <;> simp [exec, exec00EE, hs] at h <;> subst h
    · exact .inl hs
    · exact .inr (.inr ⟨rfl, _, rfl⟩)
  case op2NNN nnn =>
    simp [exec, exec2NNN, push_eq] at h
    subst h
    exact .inr (.inl ⟨rfl, rfl⟩)
  case opDXYN x y n =>
    simp only [exec, execDXYN] at h
    cases hr : memRead s.i.toNat n s <;> rw [hr] at h <;> simp at h <;> subst h <;> exact .inl rfl
  case opFX33 x =>
    simp only [exec, execFX33, memWrite] at h
    split at h <;> simp at h <;> subst h <;> exact .inl rfl
  case opFX55 x =>
    simp only [exec, execFX55, memWrite] at h
    split at h <;> simp at h <;> subst h
    · exact .inl rfl
    · rw [advanceIndex_eq]
      exact .inl rfl
  case opFX65 x =>
    simp only [exec, execFX65] at h
    cases hr : memRead s.i.toNat (x.val + 1) s <;> rw [hr] at h <;> simp at h <;> subst h
    · exact .inl rfl
    · rw [advanceIndex_eq, loadRegs_eq]
      exact .inl rfl
  case opEX9E x =>
    cases hk : s.testedKey x <;> simp [exec, execEX9E, hk, skipIf_eq] at h <;> subst h <;> exact .inl rfl
  case opEXA1 x =>
    cases hk : s.testedKey x <;> simp [exec, execEXA1, hk, skipIf_eq] at h <;> subst h <;> exact .inl rfl
  case opFX0A x => cases hk : s.leastKey <;> simp [exec, execFX0A, hk] at h <;> subst h <;> exact .inl rfl
  case opFX1E x =>
    simp only [exec, execFX1E] at h
    split at h <;> simp at h <;> subst h <;> exact .inl rfl
  all_goals
    simp [exec, exec00E0, exec1NNN, exec3XNN, exec4XNN, exec5XY0, exec6XNN, exec7XNN, exec8XY0, exec8XY1,
      exec8XY2, exec8XY3, exec8XY4, exec8XY5, exec8XY6, exec8XY7, exec8XYE, exec9XY0, execANNN, execBNNN, execCXNN,
      execFX07, execFX15, execFX18, execFX29, skipIf_eq] at h
    subst h
    exact .inl rfl

end Sys2Proof.Machine
end

