-- ==== Sys2Proof/Laws/PerInstr.lean ====
section
/-! SUPPORT. Statements about each instruction as syntax, one lemma per constructor. -/

namespace Sys2Proof.Laws.EncodedInRow

/-- The word of an instruction belongs to its row of the opcode map: `w & mask = match` (30_encoding.md R67). -/
def Statement (i : Instr) : Prop := encodeWord i &&& i.tag.maskWord = i.tag.matchWord

variable (x y : RegIx) (n : Nat) (nn : Byte) (nnn : Addr12)

theorem op00E0 : Statement .op00E0 := rfl
theorem op00EE : Statement .op00EE := rfl
theorem op1NNN : Statement (.op1NNN nnn) := (match_op _ 0x1).2 (fieldOp_packNNN ..)
theorem op2NNN : Statement (.op2NNN nnn) := (match_op _ 0x2).2 (fieldOp_packNNN ..)
theorem op3XNN : Statement (.op3XNN x nn) := (match_op _ 0x3).2 (fieldOp_packXNN ..)
theorem op4XNN : Statement (.op4XNN x nn) := (match_op _ 0x4).2 (fieldOp_packXNN ..)
theorem op5XY0 : Statement (.op5XY0 x y) := (match_op _ 0x5).2 (fieldOp_packXYN ..)
theorem op6XNN : Statement (.op6XNN x nn) := (match_op _ 0x6).2 (fieldOp_packXNN ..)
theorem op7XNN : Statement (.op7XNN x nn) := (match_op _ 0x7).2 (fieldOp_packXNN ..)
theorem op8XY0 : Statement (.op8XY0 x y) := (match_opN _ 0x8 0x0).2 ⟨fieldOp_packXYN .., fieldN_packXYN ..⟩
theorem op8XY1 : Statement (.op8XY1 x y) := (match_opN _ 0x8 0x1).2 ⟨fieldOp_packXYN .., fieldN_packXYN ..⟩
theorem op8XY2 : Statement (.op8XY2 x y) := (match_opN _ 0x8 0x2).2 ⟨fieldOp_packXYN .., fieldN_packXYN ..⟩
theorem op8XY3 : Statement (.op8XY3 x y) := (match_opN _ 0x8 0x3).2 ⟨fieldOp_packXYN .., fieldN_packXYN ..⟩
theorem op8XY4 : Statement (.op8XY4 x y) := (match_opN _ 0x8 0x4).2 ⟨fieldOp_packXYN .., fieldN_packXYN ..⟩
theorem op8XY5 : Statement (.op8XY5 x y) := (match_opN _ 0x8 0x5).2 ⟨fieldOp_packXYN .., fieldN_packXYN ..⟩
theorem op8XY6 : Statement (.op8XY6 x y) := (match_opN _ 0x8 0x6).2 ⟨fieldOp_packXYN .., fieldN_packXYN ..⟩
theorem op8XY7 : Statement (.op8XY7 x y) := (match_opN _ 0x8 0x7).2 ⟨fieldOp_packXYN .., fieldN_packXYN ..⟩
theorem op8XYE : Statement (.op8XYE x y) := (match_opN _ 0x8 0xE).2 ⟨fieldOp_packXYN .., fieldN_packXYN ..⟩
theorem op9XY0 : Statement (.op9XY0 x y) := (match_op _ 0x9).2 (fieldOp_packXYN ..)
theorem opANNN : Statement (.opANNN nnn) := (match_op _ 0xA).2 (fieldOp_packNNN ..)
theorem opBNNN : Statement (.opBNNN nnn) := (match_op _ 0xB).2 (fieldOp_packNNN ..)
theorem opCXNN : Statement (.opCXNN x nn) := (match_op _ 0xC).2 (fieldOp_packXNN ..)
theorem opDXYN : Statement (.opDXYN x y n) := (match_op _ 0xD).2 (fieldOp_packXYN ..)
theorem opEX9E : Statement (.opEX9E x) := (match_opNN _ 0xE 0x9E).2 ⟨fieldOp_packXNN .., fieldNN_packXNN ..⟩
theorem opEXA1 : Statement (.opEXA1 x) := (match_opNN _ 0xE 0xA1).2 ⟨fieldOp_packXNN .., fieldNN_packXNN ..⟩
theorem opFX07 : Statement (.opFX07 x) := (match_opNN _ 0xF 0x07).2 ⟨fieldOp_packXNN .., fieldNN_packXNN ..⟩
theorem opFX0A : Statement (.opFX0A x) := (match_opNN _ 0xF 0x0A).2 ⟨fieldOp_packXNN .., fieldNN_packXNN ..⟩
theorem opFX15 : Statement (.opFX15 x) := (match_opNN _ 0xF 0x15).2 ⟨fieldOp_packXNN .., fieldNN_packXNN ..⟩
theorem opFX18 : Statement (.opFX18 x) := (match_opNN _ 0xF 0x18).2 ⟨fieldOp_packXNN .., fieldNN_packXNN ..⟩
theorem opFX1E : Statement (.opFX1E x) := (match_opNN _ 0xF 0x1E).2 ⟨fieldOp_packXNN .., fieldNN_packXNN ..⟩
theorem opFX29 : Statement (.opFX29 x) := (match_opNN _ 0xF 0x29).2 ⟨fieldOp_packXNN .., fieldNN_packXNN ..⟩
theorem opFX33 : Statement (.opFX33 x) := (match_opNN _ 0xF 0x33).2 ⟨fieldOp_packXNN .., fieldNN_packXNN ..⟩
theorem opFX55 : Statement (.opFX55 x) := (match_opNN _ 0xF 0x55).2 ⟨fieldOp_packXNN .., fieldNN_packXNN ..⟩
theorem opFX65 : Statement (.opFX65 x) := (match_opNN _ 0xF 0x65).2 ⟨fieldOp_packXNN .., fieldNN_packXNN ..⟩

end Sys2Proof.Laws.EncodedInRow
end

