-- ==== Sys2Proof/Laws/Step.lean ====
section
/-! SUPPORT. What one step can do: the four operations of the host, and the five ways a `step_cycle` can go. -/

namespace Sys2Proof.Machine

variable (s : State)

/-! The state each operation of the host leaves, as one record: cite these before anything is compared field by field. -/

theorem takeTurn_eq : s.takeTurn = { s with agenda := s.agenda.tail, turnsTaken := s.turnsTaken + 1 } := rfl

theorem atCycle_eq (late : Nat) (rnd : Byte) : s.atCycle late rnd =
    { s with
      agenda := s.agenda.tail, turnsTaken := s.turnsTaken + 1, now := max s.now s.nextCycleDue + late, rnd := rnd } := rfl

theorem frameTick_eq (late : Nat) : frameTick (s.takeTurn.setNow (performedAt s.now s.nextFrameDue late)) =
    { s with
      dt := tickTimer s.dt, st := tickTimer s.st, redrawPending := false,
      nextFrameDue := s.nextFrameDue + Config.framePeriodUs, presented := some s.fb,
      now := max s.now s.nextFrameDue + late, agenda := s.agenda.tail, turnsTaken := s.turnsTaken + 1 } := rfl

theorem keyEvent_eq (late : Nat) (k : KeyIx) (pressed : Bool) : keyEvent k pressed (s.takeTurn.setNow (s.now + late)) =
    { s with
      keys := s.keys.set k.val pressed k.isLt, now := s.now + late, agenda := s.agenda.tail,
      turnsTaken := s.turnsTaken + 1 } := rfl

theorem readFb_eq (late : Nat) : readFb (s.takeTurn.setNow (s.now + late)) =
    { s with
      presented := some s.fb, now := s.now + late, agenda := s.agenda.tail, turnsTaken := s.turnsTaken + 1 } := rfl

/-- A timer's tick is max(0, value - 1) (46_scheduler.md R161). -/
theorem tickTimer_toNat (b : Byte) : (tickTimer b).toNat = b.toNat - 1 := by
  unfold tickTimer
  split
  · simp [*]
  · rename_i h
    have h0 : b.toNat ≠ 0 := fun e => h (BitVec.eq_of_toNat_eq e)
    have := b.isLt
    simp [BitVec.toNat_sub]
    omega

variable {s}

/-- What a performed `step_cycle` can do to the state `s` it finds (40_sequencer.md R80, R81, R83, R85, R86). -/
inductive CycleCase (s t : State) : Prop
  /-- The fetch is out of range. -/
  | fetchFault (h : 0xFFE < s.pc.toNat) (ht : t = raise .fetchOutOfRange s.pc s)
  /-- The word is no instruction. -/
  | illegal (w : Word) (r : DecodeReject) (hf : fetch s = .ok w) (hd : decodeWord w = .error r)
      (ht : t = raise .illegalOpcode w s)
  /-- The instruction halts the core. -/
  | execFault (w : Word) (i : Instr) (hf : fetch s = .ok w) (hd : decodeWord w = .ok i)
      (he : exec i s.advance = .next t) (hh : t.halted = true)
  /-- The instruction completes, and its latency is charged. -/
  | completes (w : Word) (i : Instr) (u : State) (hf : fetch s = .ok w) (hd : decodeWord w = .ok i)
      (he : exec i s.advance = .next u) (hh : u.halted = false) (ht : t = u.chargeCycle (latency i))

theorem charge_next (i : Instr) (t : State) :
    charge i (.next t) = .next (if t.halted then t else t.chargeCycle (latency i)) := rfl

/-- Every performed `step_cycle` answers a next state, and goes one of the five ways. -/
theorem stepCycle_cases (s : State) : ∃ t, stepCycle s = .next t ∧ CycleCase s t := by
  unfold stepCycle
  by_cases hpc : 0xFFE < s.pc.toNat
  · rw [fetch_error s hpc]
    exact ⟨_, rfl, .fetchFault hpc rfl⟩
  · have hf := fetch_ok s (by omega)
    rw [hf]
    dsimp only
    cases hd : decodeWord (s.mem.read s.pc.toNat ++ s.mem.read (s.pc.toNat + 1)) with
    | error r => exact ⟨_, rfl, .illegal _ r hf hd rfl⟩
    | ok i =>
      obtain ⟨u, hu⟩ := exec_next i s.advance
      dsimp only
      rw [hu, charge_next]
      cases hh : u.halted
      · exact ⟨_, rfl, .completes _ i u hf hd hu hh (by simp)⟩
      · exact ⟨_, rfl, .execFault _ i hf hd (by simpa using hu) (by simpa using hh)⟩

/-- What one step can do: the host's next operation and its effect. -/
inductive StepCase (s t : State) : Prop
  /-- The sequencer runs. -/
  | cycle (late : Nat) (rnd : Byte) (hs : SequencerTurn s late rnd) (h : CycleCase (s.atCycle late rnd) t)
  /-- The sequencer is asked for in the halted state or while a redraw is pending. -/
  | closed (late : Nat) (rnd : Byte) (hn : s.nextTurn = .stepCycle late rnd)
      (hc : s.halted = true ∨ s.redrawPending = true)
      (ht : t = { s with agenda := s.agenda.tail, turnsTaken := s.turnsTaken + 1 })
  /-- A frame tick. -/
  | tick (late : Nat) (hn : s.nextTurn = .frameTick late)
      (ht : t = { s with
        dt := tickTimer s.dt, st := tickTimer s.st, redrawPending := false,
        nextFrameDue := s.nextFrameDue + Config.framePeriodUs, presented := some s.fb,
        now := max s.now s.nextFrameDue + late, agenda := s.agenda.tail, turnsTaken := s.turnsTaken + 1 })
  /-- A key event. -/
  | key (late : Nat) (k : KeyIx) (pressed : Bool) (hn : s.nextTurn = .keyEvent late k pressed)
      (ht : t = { s with
        keys := s.keys.set k.val pressed k.isLt, now := s.now + late, agenda := s.agenda.tail,
        turnsTaken := s.turnsTaken + 1 })
  /-- A read of the framebuffer. -/
  | readFb (late : Nat) (hn : s.nextTurn = .readFb late)
      (ht : t = { s with
        presented := some s.fb, now := s.now + late, agenda := s.agenda.tail, turnsTaken := s.turnsTaken + 1 })

/-- A `step_cycle` whose word decodes is the execute phase and the charge. -/
theorem stepCycle_decoded {s : State} {w : Word} {i : Instr} (hf : fetch s = .ok w) (hd : decodeWord w = .ok i) :
    stepCycle s = charge i (exec i s.advance) := by
  unfold stepCycle
  rw [hf]
  dsimp only
  rw [hd]

theorem step_cycle_eq {s : State} {late : Nat} {rnd : Byte} (h : SequencerTurn s late rnd) :
    step s = stepCycle (s.atCycle late rnd) := by
  unfold step perform
  rw [h.1]
  simp [h.2.1, h.2.2, State.atCycle]

/-- Every step answers a next state, and is one of the operations of the host. -/
theorem step_cases (s : State) : ∃ t, step s = .next t ∧ StepCase s t := by
  cases hn : s.nextTurn with
  | stepCycle late rnd =>
    by_cases hc : s.halted = true ∨ s.redrawPending = true
    · refine ⟨s.takeTurn, ?_, .closed late rnd hn hc (takeTurn_eq s)⟩
      unfold step perform
      rw [hn]
      simp [hc]
    · have hs : SequencerTurn s late rnd := ⟨hn, by simpa using fun h => hc (.inl h), by simpa using fun h => hc (.inr h)⟩
      obtain ⟨t, ht, hcase⟩ := stepCycle_cases (s.atCycle late rnd)
      exact ⟨t, by rw [step_cycle_eq hs, ht], .cycle late rnd hs hcase⟩
  | frameTick late => exact ⟨_, by unfold step perform; rw [hn]; rfl, .tick late hn (frameTick_eq s late)⟩
  | keyEvent late k pressed =>
    exact ⟨_, by unfold step perform; rw [hn]; rfl, .key late k pressed hn (keyEvent_eq s late k pressed)⟩
  | readFb late => exact ⟨_, by unfold step perform; rw [hn]; rfl, .readFb late hn (readFb_eq s late)⟩

/-- The same, of the state a step is known to answer. -/
theorem stepCase_of_step {s t : State} (h : step s = .next t) : StepCase s t := by
  obtain ⟨u, hu, hc⟩ := step_cases s
  rw [h] at hu
  cases hu
  exact hc

/-- An operation of any host is the step of the state in which it comes next, so that `step_cases` speaks of every run. -/
theorem perform_eq_step (t : HostTurn) (s : State) :
    perform t s.takeTurn = step { s with agenda := t :: s.agenda.tail } := rfl

/-- A run of `step` is a run of the host that each state names. -/
theorem hostRun_of_steps {run : Nat → State} (h : ∀ n, step (run n) = .next (run (n + 1))) :
    HostRun (fun n => (run n).nextTurn) run := h

/-- What one operation of a run can do. -/
theorem HostRun.stepCase {turns : Nat → HostTurn} {run : Nat → State} (h : HostRun turns run) (n : Nat) :
    StepCase { run n with agenda := turns n :: (run n).agenda.tail } (run (n + 1)) :=
  stepCase_of_step (h n)

/-- Every host has a run from every state. -/
theorem exists_hostRun (turns : Nat → HostTurn) (s : State) : ∃ run : Nat → State, run 0 = s ∧ HostRun turns run := by
  have next : ∀ (t : HostTurn) (u : State), ∃ v, perform t u.takeTurn = .next v := fun t u =>
    (step_cases { u with agenda := t :: u.agenda.tail }).imp fun _ h => h.1
  choose f hf using next
  exact ⟨fun n => Nat.rec s (fun k u => f (turns k) u) n, rfl, fun n => hf _ _⟩

/-- A performed `frame_tick`, as one record. -/
theorem perform_frameTick (late : Nat) (s : State) : perform (.frameTick late) s.takeTurn = .next { s with
    dt := tickTimer s.dt, st := tickTimer s.st, redrawPending := false,
    nextFrameDue := s.nextFrameDue + Config.framePeriodUs, presented := some s.fb,
    now := max s.now s.nextFrameDue + late, agenda := s.agenda.tail, turnsTaken := s.turnsTaken + 1 } := by
  rw [← frameTick_eq]
  rfl

/-- A performed `step_cycle`. -/
theorem perform_stepCycle {late : Nat} {rnd : Byte} {s : State} (hh : s.halted = false) (hr : s.redrawPending = false) :
    perform (.stepCycle late rnd) s.takeTurn = stepCycle (s.atCycle late rnd) := by
  simp [perform, hh, hr, State.atCycle]

/-- The hazard of 70_reset_and_hazards.md R203: an instruction of latency 0, run at once, leaves the time and the due time
as they were, so that the step gate stays open at the same `now` unless the core halted or a redraw is pending. -/
theorem zero_latency_keeps_gate {s u : State} {rnd : Byte} {w : Word} {i : Instr} (hs : SequencerTurn s 0 rnd)
    (hdue : s.nextCycleDue ≤ s.now) (hf : fetch s = .ok w) (hd : decodeWord w = .ok i) (h0 : latency i = 0)
    (he : exec i (s.atCycle 0 rnd).advance = .next u) (hh : u.halted = false) (hr : u.redrawPending = false) :
    ∃ t, step s = .next t ∧ t.now = s.now ∧ t.nextCycleDue = s.nextCycleDue ∧ stepGate t.now t = true := by
  have ho := exec_sameOutside he
  have hnow : u.now = s.now := by rw [ho.now]; exact Nat.max_eq_left hdue
  have hncd : u.nextCycleDue = s.nextCycleDue := ho.nextCycleDue
  refine ⟨u.chargeCycle (latency i), ?_, hnow, by simp [State.chargeCycle, h0, hncd], ?_⟩
  · have hfc : fetch (s.atCycle 0 rnd) = .ok w := by rw [← hf]; exact fetch_congr rfl rfl
    rw [step_cycle_eq hs, stepCycle_decoded hfc hd, he, charge_next, hh]
    rfl
  · simp [stepGate, State.chargeCycle, h0, hh, hr, hnow, hncd, hdue]

end Sys2Proof.Machine
end

