-- ==== Sys2Proof/Tests/Slice0.lean ====
section
/-! SUPPORT. The model's own tests, each about one step or one decoding, with the expected results of
95_test_vectors.md (T<n>, S<n> and E<n> are its names), and the witnesses of the hypotheses of the obligations. -/

namespace Sys2Proof.Tests

open Sys2Proof.Machine

/-! ### Helpers -/

/-- The registers of reset with some of them written. -/
def regs (l : List (RegIx × Byte)) : Vector Byte 16 :=
  l.foldl (fun v p => v.set p.1.val p.2 p.1.isLt) State.reset.v

/-- The latch with some keys pressed. -/
def down (l : List KeyIx) : Vector Bool 16 := l.foldl (fun v k => v.set k.val true k.isLt) State.reset.keys

/-- Memory of reset with bytes written from an address. -/
def bytesAt (a : Nat) (l : List Byte) : Memory := Memory.writeAll [] a l

/-- What one step that runs the word `w` leaves, seen through `f`. -/
def after {α : Type} (w : Nat) (s : State) (f : State → α) : Option α :=
  match step (s.withFetchWord 16 w) with
  | .next t => some (f t)
  | _ => none

/-- What one step that performs the operation `turn` leaves, seen through `f`. -/
def afterTurn {α : Type} (turn : HostTurn) (s : State) (f : State → α) : Option α :=
  match step (s.withAgenda [turn]) with
  | .next t => some (f t)
  | _ => none

/-- The fault registers and `PC`. -/
def haltView (t : State) : Bool × Nat × Word × Word := (t.halted, t.haltCause.code, t.haltInfo, t.pc)

/-- The reset state in legacy mode. -/
def legacyReset : State := { State.reset with legacy := true }

/-! ### Well-formedness: the check refuses the ill-formed term -/

theorem test_wf_draw_16_rows_refused : Instr.wf (.opDXYN 0 0 16) = false := by decide
theorem test_wf_draw_15_rows_accepted : Instr.wf (.opDXYN 0 0 15) = true := by decide

/-! ### Decoding: one word of every row, written from the encodings of 30_encoding.md R67 -/

theorem test_decode_00E0 : decodeTableWord 16 0x00E0 = some .op00E0 := by decide
theorem test_decode_00EE : decodeTableWord 16 0x00EE = some .op00EE := by decide
theorem test_decode_1NNN : decodeTableWord 16 0x1ABC = some (.op1NNN 0xABC) := by decide
theorem test_decode_2NNN : decodeTableWord 16 0x2210 = some (.op2NNN 0x210) := by decide
theorem test_decode_3XNN : decodeTableWord 16 0x3100 = some (.op3XNN 0x1 0x00) := by decide
theorem test_decode_4XNN : decodeTableWord 16 0x4A05 = some (.op4XNN 0xA 0x05) := by decide
theorem test_decode_5XY0 : decodeTableWord 16 0x5120 = some (.op5XY0 0x1 0x2) := by decide
theorem test_decode_6XNN : decodeTableWord 16 0x6A2B = some (.op6XNN 0xA 0x2B) := by decide
theorem test_decode_7XNN : decodeTableWord 16 0x7F01 = some (.op7XNN 0xF 0x01) := by decide
theorem test_decode_8XY0 : decodeTableWord 16 0x8120 = some (.op8XY0 0x1 0x2) := by decide
theorem test_decode_8XY1 : decodeTableWord 16 0x8121 = some (.op8XY1 0x1 0x2) := by decide
theorem test_decode_8XY2 : decodeTableWord 16 0x8122 = some (.op8XY2 0x1 0x2) := by decide
theorem test_decode_8XY3 : decodeTableWord 16 0x8123 = some (.op8XY3 0x1 0x2) := by decide
theorem test_decode_8XY4 : decodeTableWord 16 0x8AB4 = some (.op8XY4 0xA 0xB) := by decide
theorem test_decode_8XY5 : decodeTableWord 16 0x8F15 = some (.op8XY5 0xF 0x1) := by decide
theorem test_decode_8XY6 : decodeTableWord 16 0x8126 = some (.op8XY6 0x1 0x2) := by decide
theorem test_decode_8XY7 : decodeTableWord 16 0x8017 = some (.op8XY7 0x0 0x1) := by decide
theorem test_decode_8XYE : decodeTableWord 16 0x812E = some (.op8XYE 0x1 0x2) := by decide
theorem test_decode_9XY0 : decodeTableWord 16 0x9120 = some (.op9XY0 0x1 0x2) := by decide
theorem test_decode_ANNN : decodeTableWord 16 0xA050 = some (.opANNN 0x050) := by decide
theorem test_decode_BNNN : decodeTableWord 16 0xB2F0 = some (.opBNNN 0x2F0) := by decide
theorem test_decode_CXNN : decodeTableWord 16 0xC10F = some (.opCXNN 0x1 0x0F) := by decide
theorem test_decode_DXYN : decodeTableWord 16 0xD015 = some (.opDXYN 0x0 0x1 5) := by decide
theorem test_decode_EX9E : decodeTableWord 16 0xE29E = some (.opEX9E 0x2) := by decide
theorem test_decode_EXA1 : decodeTableWord 16 0xE2A1 = some (.opEXA1 0x2) := by decide
theorem test_decode_FX07 : decodeTableWord 16 0xF507 = some (.opFX07 0x5) := by decide
theorem test_decode_FX0A : decodeTableWord 16 0xF30A = some (.opFX0A 0x3) := by decide
theorem test_decode_FX15 : decodeTableWord 16 0xF515 = some (.opFX15 0x5) := by decide
theorem test_decode_FX18 : decodeTableWord 16 0xF518 = some (.opFX18 0x5) := by decide
theorem test_decode_FX1E : decodeTableWord 16 0xF11E = some (.opFX1E 0x1) := by decide
theorem test_decode_FX29 : decodeTableWord 16 0xF329 = some (.opFX29 0x3) := by decide
theorem test_decode_FX33 : decodeTableWord 16 0xF033 = some (.opFX33 0x0) := by decide
theorem test_decode_FX55 : decodeTableWord 16 0xF255 = some (.opFX55 0x2) := by decide
theorem test_decode_FX65 : decodeTableWord 16 0xFE65 = some (.opFX65 0xE) := by decide

/-- The field `N` of `5XYn` and `9XYn` is ignored (R66). -/
theorem test_decode_ignores_n :
    decodeTableWord 16 0x5AB7 = some (.op5XY0 0xA 0xB) ∧ decodeTableWord 16 0x9FF1 = some (.op9XY0 0xF 0xF) := by decide

/-- Boundary words of section 4 that are no instruction. -/
theorem test_decode_illegal :
    ∀ w ∈ [0x0000, 0x00E1, 0x00ED, 0x00EF, 0x00FE, 0x01E0, 0x0FFF, 0x8AB8, 0x8ABD, 0x8ABF, 0xE000, 0xE09D, 0xE0A2, 0xEF9F,
      0xF000, 0xF008, 0xF01D, 0xF056, 0xF064, 0xF066, 0xFFFF], decodeTableWord 16 w = none := by decide

/-- R69: too few bytes are no instruction. -/
theorem test_decode_truncated : decode [0x60] = .error .truncated := rfl

/-- Encoding, written from the spec's words. -/
theorem test_encode :
    encode (.opDXYN 0 1 5) = [0xD0, 0x15] ∧ encode (.opFX65 0xE) = [0xFE, 0x65] ∧ encode (.op8XY4 0xA 0xB) = [0x8A, 0xB4] ∧
      encode (.op9XY0 1 2) = [0x91, 0x20] ∧ encode (.op3XNN 1 0) = [0x31, 0x00] ∧ encode (.op1NNN 0x234) = [0x12, 0x34] := by
  decide

/-! ### Control transfer (section 3.1) -/

/-- T1. -/
theorem test_1NNN : after 0x1ABC State.reset (fun t => t.pc) = some 0x0ABC := by decide
/-- T5: the advanced `PC` is pushed. -/
theorem test_2NNN :
    after 0x2400 { State.reset with pc := 0x0FFE } (fun t => (t.pc, t.stack)) = some (0x0400, [0x1000]) := by decide
/-- T7. -/
theorem test_00EE :
    after 0x00EE { State.reset with stack := [0x0206, 0x030A], pc := 0x0400 } (fun t => (t.pc, t.stack)) = some
      (0x0206, [0x030A]) := by decide
/-- T8. -/
theorem test_00EE_empty : after 0x00EE State.reset haltView = some (true, 2, 0x00EE, 0x0200) := by decide
/-- T9. -/
theorem test_3XNN : after 0x3100 { State.reset with pc := 0x0208 } (fun t => t.pc) = some 0x020C := by decide
/-- T10. -/
theorem test_3XNN_no :
    after 0x3100 { State.reset with pc := 0x0208, v := regs [(1, 1)] } (fun t => t.pc) = some 0x020A := by decide
/-- T12. -/
theorem test_4XNN :
    after 0x4A05 { State.reset with pc := 0x0300, v := regs [(0xA, 6)] } (fun t => t.pc) = some 0x0304 := by decide
/-- T11. -/
theorem test_4XNN_no :
    after 0x4A05 { State.reset with pc := 0x0300, v := regs [(0xA, 5)] } (fun t => t.pc) = some 0x0302 := by decide
/-- T14. -/
theorem test_5XY0 :
    after 0x5127 { State.reset with v := regs [(1, 0x7F), (2, 0x7F)] } (fun t => t.pc) = some 0x0204 := by decide
/-- T15. -/
theorem test_5XY0_no :
    after 0x5120 { State.reset with v := regs [(1, 1), (2, 2)] } (fun t => t.pc) = some 0x0202 := by decide
/-- T18. -/
theorem test_9XY0 :
    after 0x912F { State.reset with v := regs [(1, 1), (2, 2)] } (fun t => t.pc) = some 0x0204 := by decide
/-- T17. -/
theorem test_9XY0_no :
    after 0x9120 { State.reset with v := regs [(1, 3), (2, 3)] } (fun t => t.pc) = some 0x0202 := by decide
/-- T21: the sum is not reduced. -/
theorem test_BNNN_modern :
    after 0xBFFF { State.reset with v := regs [(0xF, 0xFF)] } (fun t => t.pc) = some 0x10FE := by decide
/-- T20. -/
theorem test_BNNN_legacy :
    after 0xB2F0 { legacyReset with v := regs [(0, 0x04), (2, 0x10)] } (fun t => t.pc) = some 0x02F4 := by decide

/-! ### Constants, arithmetic, logic, shifts, random (section 3.2) -/

/-- T30. -/
theorem test_6XNN : after 0x6A2B State.reset (fun t => (t.reg 0xA, t.pc)) = some (0x2B, 0x0202) := by decide
/-- T32: no carry flag. -/
theorem test_7XNN :
    after 0x7002 { State.reset with v := regs [(0, 0xFF)] } (fun t => (t.reg 0, t.reg 0xF)) = some (0x01, 0x00) :=
      by decide
/-- T35. -/
theorem test_8XY0 :
    after 0x8120 { State.reset with v := regs [(2, 0x33)] } (fun t => (t.reg 1, t.reg 2)) = some (0x33, 0x33) := by
      decide
/-- T36: `VF` is kept. -/
theorem test_8XY1 :
    after 0x8121 { State.reset with v := regs [(1, 0xF0), (2, 0x0F), (0xF, 0x55)] } (fun t => (t.reg 1, t.reg 0xF))
      = some (0xFF, 0x55) := by decide
/-- T37: `VF` is kept in legacy mode too. -/
theorem test_8XY2 :
    after 0x8122 { legacyReset with v := regs [(1, 0xF0), (2, 0x3C), (0xF, 0x55)] } (fun t => (t.reg 1, t.reg 0xF))
      = some (0x30, 0x55) := by decide
/-- T38. -/
theorem test_8XY3 :
    after 0x8123 { State.reset with v := regs [(1, 0xF0), (2, 0x3C)] } (fun t => t.reg 1) = some 0xCC := by decide
/-- T42. -/
theorem test_8XY4 :
    after 0x8014 { State.reset with v := regs [(0, 0xFF), (1, 0x01)] } (fun t => (t.reg 0, t.reg 0xF)) = some (0x00,
      0x01) := by decide
/-- T44. -/
theorem test_8XY4_flag_wins :
    after 0x8F14 { State.reset with v := regs [(0xF, 1), (1, 1)] } (fun t => t.reg 0xF) = some 0x00 := by decide
/-- T48. -/
theorem test_8XY5 :
    after 0x8015 { State.reset with v := regs [(0, 1), (1, 2), (0xF, 1)] } (fun t => (t.reg 0, t.reg 0xF)) = some
      (0xFF, 0x00) := by decide
/-- T49. -/
theorem test_8XY5_equal :
    after 0x8015 { State.reset with v := regs [(0, 7), (1, 7)] } (fun t => (t.reg 0, t.reg 0xF)) = some (0x00, 0x01)
      := by decide
/-- T52. -/
theorem test_8XY7 :
    after 0x8017 { State.reset with v := regs [(0, 0x0A), (1, 3), (0xF, 1)] } (fun t => (t.reg 0, t.reg 0xF)) = some
      (0xF9, 0x00) := by decide
/-- T51. -/
theorem test_8XY7_no_borrow :
    after 0x8017 { State.reset with v := regs [(0, 3), (1, 0x0A)] } (fun t => (t.reg 0, t.reg 0xF)) = some (0x07,
      0x01) := by decide
/-- T54. -/
theorem test_8XY6_modern :
    after 0x8126 { State.reset with v := regs [(1, 5), (2, 8)] } (fun t => (t.reg 1, t.reg 0xF)) = some (0x02, 0x01)
      := by decide
/-- T57: the flag wins. -/
theorem test_8XY6_legacy :
    after 0x8F26 { legacyReset with v := regs [(0xF, 4), (2, 3)] } (fun t => t.reg 0xF) = some 0x01 := by decide
/-- T59. -/
theorem test_8XYE_modern :
    after 0x812E { State.reset with v := regs [(1, 0x81), (2, 0x40)] } (fun t => (t.reg 1, t.reg 0xF)) = some (0x02,
      0x01) := by decide
/-- T60. -/
theorem test_8XYE_legacy :
    after 0x812E { legacyReset with v := regs [(1, 0x81), (2, 0x40), (0xF, 1)] } (fun t => (t.reg 1, t.reg 0xF)) =
      some (0x80, 0x00) := by decide
/-- T62. -/
theorem test_CXNN :
    afterTurn (.stepCycle 0 0xA7) { State.reset with mem := bytesAt 0x200 [0xC1, 0x0F] } (fun t => t.reg 1) = some
      0x07 := by decide
/-- T63. -/
theorem test_CXNN_zero :
    afterTurn (.stepCycle 0 0xFF) { State.reset with v := regs [(1, 0x77)], mem := bytesAt 0x200 [0xC1, 0x00] } (fun
      t => t.reg 1) = some 0x00 := by decide

/-! ### Index and memory (section 3.3) -/

/-- T71. -/
theorem test_ANNN : after 0xAFFF State.reset (fun t => (t.i, t.pc)) = some (0x0FFF, 0x0202) := by decide
/-- T75. -/
theorem test_FX1E_modern :
    after 0xF11E { State.reset with i := 0x0FFB, v := regs [(1, 5)] } (fun t => (t.i, t.reg 0xF)) = some (0x1000,
      0x01) := by decide
/-- T73. -/
theorem test_FX1E_legacy :
    after 0xF11E { legacyReset with i := 0x0FFE, v := regs [(1, 5)] } (fun t => (t.i, t.reg 0xF)) = some (0x1003,
      0x00) := by decide
/-- T80. -/
theorem test_FX29 : after 0xF329 { State.reset with v := regs [(3, 0x1A)] } (fun t => t.i) = some 0x0082 := by decide
/-- T85: the last legal `I`. -/
theorem test_FX33 :
    after 0xF033 { State.reset with i := 0x0FFD, v := regs [(0, 0x7B)] } (fun t => (t.mem.read 0xFFD, t.mem.read
      0xFFE, t.mem.read 0xFFF, t.i)) = some (1, 2, 3, 0x0FFD) := by decide
/-- T86. -/
theorem test_FX33_fault :
    after 0xF033 { State.reset with i := 0x0FFE, v := regs [(0, 0x7B)] } (fun t => (haltView t, t.mem.read 0xFFE)) =
      some ((true, 4, 0x1000, 0x0200), 0) := by decide
/-- T89. -/
theorem test_FX55_legacy :
    after 0xF255 { legacyReset with i := 0x0300, v := regs [(0, 0x11), (1, 0x22), (2, 0x33), (3, 0x44)] } (fun t =>
      ([0x2FF, 0x300, 0x301, 0x302, 0x303].map t.mem.read, t.i)) = some ([0, 0x11, 0x22, 0x33, 0], 0x0303) := by
      decide
/-- T90: `I` becomes 0x1000. -/
theorem test_FX55_last :
    after 0xF055 { legacyReset with i := 0x0FFF, v := regs [(0, 0xAB)] } (fun t => (t.mem.read 0xFFF, t.i)) = some
      (0xAB, 0x1000) := by decide
/-- T93. -/
theorem test_FX65_modern :
    after 0xF265 { State.reset with i := 0x0300, v := regs [(3, 0x99)], mem := bytesAt 0x300 [1, 5, 6, 7] } (fun t
      => ([0, 1, 2, 3].map t.reg, t.i)) = some ([1, 5, 6, 0x99], 0x0300) := by decide
/-- T95. -/
theorem test_FX65_fault :
    after 0xFF65 { State.reset with i := 0x0FF1 } haltView = some (true, 4, 0x1000, 0x0200) := by decide

/-! ### Display (section 3.4) -/

/-- T100. -/
theorem test_00E0 :
    after 0x00E0 { State.reset with fb := (State.reset.fb.flip 0 0).flip 63 31 } (fun t => (t.fb.pixel 0 0,
      t.fb.pixel 63 31, t.redrawPending)) = some (false, false, true) := by decide
/-- T107 (E3): drops, does not wrap. -/
theorem test_DXYN_clip :
    after 0xD015 { State.reset with v := regs [(0, 0x3C), (1, 0x1E)], i := 0x0300, mem := bytesAt 0x300 [0xFF, 0xFF,
      0xFF, 0xFF, 0xFF] } (fun t => ([(60, 30), (63, 31), (59, 30), (60, 29), (0, 30), (60, 0), (0, 0)].map (fun p
      => t.fb.pixel p.1 p.2), t.reg 0xF)) = some ([true, true, false, false, false, false, false], 0) := by decide
/-- T103. -/
theorem test_DXYN_hit :
    after 0xD011 { State.reset with fb := State.reset.fb.flip 0 0, i := 0x0300, mem := bytesAt 0x300 [0x80] } (fun t
      => (t.fb.pixel 0 0, t.reg 0xF, t.redrawPending)) = some (false, 1, true) := by decide

/-! ### Keypad and timers (section 3.5) -/

/-- T123. -/
theorem test_EX9E :
    after 0xE29E { State.reset with v := regs [(2, 0x0E)], keys := down [0xE] } (fun t => t.pc) = some 0x0204 := by
      decide
/-- T122. -/
theorem test_EX9E_bound :
    after 0xE29E { State.reset with v := regs [(2, 0x0F)], keys := down [0xF] } (fun t => t.pc) = some 0x0202 := by
      decide
/-- T125. -/
theorem test_EXA1 : after 0xE2A1 { State.reset with v := regs [(2, 5)] } (fun t => t.pc) = some 0x0204 := by decide
/-- T127. -/
theorem test_EXA1_bound :
    after 0xE2A1 { State.reset with v := regs [(2, 0x0F)] } (fun t => t.pc) = some 0x0202 := by decide
/-- T129. -/
theorem test_FX0A_waits : after 0xF30A State.reset (fun t => t.pc) = some 0x0200 := by decide
/-- T131. -/
theorem test_FX0A :
    after 0xF30A { State.reset with keys := down [0xF, 9, 3] } (fun t => (t.reg 3, t.pc)) = some (0x03, 0x0202) :=
      by decide
/-- T134. -/
theorem test_FX07 :
    after 0xF507 { State.reset with dt := 0x3C } (fun t => (t.reg 5, t.dt)) = some (0x3C, 0x3C) := by decide
/-- T135. -/
theorem test_FX15 :
    after 0xF515 { State.reset with v := regs [(5, 0x3C)] } (fun t => (t.dt, t.st)) = some (0x3C, 0x00) := by decide
/-- T136. -/
theorem test_FX18 :
    after 0xF518 { State.reset with v := regs [(5, 0x02)] } (fun t => (t.dt, t.st)) = some (0x00, 0x02) := by decide

/-! ### Faults before the execute phase (section 3.6) -/

/-- T143. -/
theorem test_illegal_opcode :
    after 0x8128 { State.reset with v := regs [(1, 1), (2, 2)] } (fun t => (haltView t, t.reg 1, t.nextCycleDue)) =
      some ((true, 1, 0x8128, 0x0200), 1, 0) := by decide
/-- T149. -/
theorem test_fetch_out_of_range :
    afterTurn (.stepCycle 0 0) { State.reset with pc := 0x0FFF } haltView = some (true, 3, 0x0FFF, 0x0FFF) := by
      decide
/-- T151. -/
theorem test_fetch_last :
    after 0x6012 { State.reset with pc := 0x0FFE } (fun t => (t.reg 0, t.pc)) = some (0x12, 0x1000) := by decide
/-- T152. -/
theorem test_fetch_odd :
    after 0x6012 { State.reset with pc := 0x0201 } (fun t => (t.reg 0, t.pc)) = some (0x12, 0x0203) := by decide
/-- The shape of P4 with no program: the word at 0x200 is 0000 (R193). -/
theorem test_empty_program :
    afterTurn (.stepCycle 3 0) State.reset haltView = some (true, 1, 0x0000, 0x0200) := by decide

/-! ### Scheduler, timers, keys (section 5) -/

/-- S2. -/
theorem test_frame_tick :
    afterTurn (.frameTick 0) { State.reset with dt := 1, st := 0, redrawPending := true } (fun t => (t.dt, t.st,
      t.redrawPending)) = some (0, 0, false) := by decide
/-- S6. -/
theorem test_halted_tick :
    afterTurn (.frameTick 0) { State.reset with halted := true, haltCause := .stackUnderflow } (fun t => (t.halted,
      t.haltCause.code)) = some (true, 2) := by decide
/-- S4. -/
theorem test_step_gate :
    (stepGate 499 { State.reset with nextCycleDue := 500 }, stepGate 500 { State.reset with nextCycleDue := 500 },
      stepGate 500 { State.reset with nextCycleDue := 500, redrawPending := true }) = (false, true, false) := by
      decide
/-- S5. -/
theorem test_key_event :
    afterTurn (.keyEvent 0 7 true) State.reset (fun t => (t.key 7, t.key 6)) = some (true, false) := by decide
/-- Writing what an unlisted address reads as removes the entry. -/
theorem test_memory_canonical :
    Memory.write (Memory.write [] 0x300 5) 0x300 0 = [] ∧ Memory.write [(0x300, 5)] 0x2FF 6 = [(0x2FF, 6), (0x300,
      5)] := by decide

/-! ### Witnesses: states and operands that meet the hypotheses of each obligation, at the ends of their ranges -/

/-- The words of a program at 0x200, and the sequencer's turn with the input byte 0xA7 seven microseconds late. -/
def ready (l : List Byte) : State :=
  { State.reset with mem := bytesAt 0x200 l, agenda := [.stepCycle 7 0xA7] }

theorem witness_ResetIsConstructedCore :
    [0x000, 0x04F, 0x0A0, 0xFFF].map State.reset.mem.read = [0, 0, 0, 0] ∧
      State.reset.mem.read 0x050 = Config.font 0 ∧ State.reset.mem.read 0x09F = Config.font 79 := ⟨rfl, rfl, rfl⟩

theorem witness_ConstructLoadsProgram :
    ([] : List Byte).length ≤ 3584 ∧ (List.replicate 3584 (0 : Byte)).length ≤ 3584 ∧
      3584 < (List.replicate 3585 (0 : Byte)).length ∧ 0 < [(0xAB : Byte)].length := by
  simp only [List.length_replicate, List.length_nil, List.length_cons]
  omega

theorem witness_DecodeEncodeRoundTrip : Instr.wf (.opDXYN 15 15 15) = true ∧ Instr.wf (.opFX65 0xF) = true := by decide

theorem witness_EncodeDecodeCanonical :
    decodeWord 0x5AB7 = .ok (.op5XY0 0xA 0xB) ∧ decodeWord 0x9FFF = .ok (.op9XY0 0xF 0xF) ∧
      decodeWord 0xD01F = .ok (.opDXYN 0 1 15) := ⟨rfl, rfl, rfl⟩

theorem witness_IllegalWordsExactly :
    decodeWord 0x0000 = .error (.illegal0NNN 0x0000) ∧ decodeWord 0x8ABF = .error (.illegal8XYn 0x8ABF) ∧
      decodeWord 0xE09D = .error (.illegalEXnn 0xE09D) ∧ decodeWord 0xF066 = .error (.illegalFXnn 0xF066) :=
  ⟨rfl, rfl, rfl, rfl⟩

theorem witness_FetchIsBigEndian : State.reset.pc.toNat ≤ 0xFFE ∧ (0x0FFE : Word).toNat ≤ 0xFFE := by decide

theorem witness_StepRunsDecodedInstruction :
    SequencerTurn (ready [0xD0, 0x15]) 7 0xA7 ∧ (ready [0xD0, 0x15]).pc.toNat ≤ 0xFFE ∧
      decode [(ready [0xD0, 0x15]).mem.read (ready [0xD0, 0x15]).pc.toNat,
        (ready [0xD0, 0x15]).mem.read ((ready [0xD0, 0x15]).pc.toNat + 1)] = .ok (.opDXYN 0 1 5, []) :=
  ⟨⟨rfl, rfl, rfl⟩, by decide, rfl⟩

/-- The same at the last address of a fetch. -/
theorem witness_StepRunsDecodedInstruction_last :
    ∃ s : State, s.pc = 0x0FFE ∧ SequencerTurn s 0 0 ∧
      decode [s.mem.read s.pc.toNat, s.mem.read (s.pc.toNat + 1)] = .ok (.op6XNN 0 0x12, []) :=
  ⟨{ State.reset with pc := 0x0FFE, mem := bytesAt 0xFFE [0x60, 0x12], agenda := [.stepCycle 0 0] }, rfl,
    ⟨rfl, rfl, rfl⟩, rfl⟩

theorem witness_FetchOutOfRangeHalts :
    SequencerTurn { ready [] with pc := 0x0FFF } 7 0xA7 ∧ 0xFFE < (0x0FFF : Word).toNat := ⟨⟨rfl, rfl, rfl⟩, by decide⟩

theorem witness_IllegalOpcodeHalts :
    SequencerTurn (ready [0x81, 0x28]) 7 0xA7 ∧ fetch (ready [0x81, 0x28]) = .ok 0x8128 ∧
      decodeWord 0x8128 = .error (.illegal8XYn 0x8128) := ⟨⟨rfl, rfl, rfl⟩, rfl, rfl⟩

theorem witness_FaultsArePrecise :
    SequencerTurn (ready [0x00, 0xEE]) 7 0xA7 ∧ ∃ t, step (ready [0x00, 0xEE]) = .next t ∧ t.halted = true :=
  ⟨⟨rfl, rfl, rfl⟩, _, rfl, rfl⟩

theorem witness_LatencyByTagAndSize :
    (Instr.opDXYN 0 1 5).tag = (Instr.opDXYN 2 3 5).tag ∧ accessCount (.opDXYN 0 1 5) = accessCount (.opDXYN 2 3 5) ∧
      (Instr.op6XNN 0 1).tag = (Instr.op6XNN 2 3).tag := by decide

theorem witness_opcode_hypotheses :
    fieldOp 0x1ABC = 0x1 ∧ fieldOp 0x2FFF = 0x2 ∧ fieldOp 0x3100 = 0x3 ∧ fieldOp 0x4A05 = 0x4 ∧ fieldOp 0x5127 = 0x5 ∧
      fieldOp 0x6F07 = 0x6 ∧ fieldOp 0x70FF = 0x7 ∧ fieldOp 0x912F = 0x9 ∧ fieldOp 0xA000 = 0xA ∧ fieldOp 0xBFFF = 0xB ∧
      (fieldOp 0x8120 = 0x8 ∧ fieldN 0x8120 = 0x0) ∧ (fieldOp 0x8121 = 0x8 ∧ fieldN 0x8121 = 0x1) ∧
      (fieldOp 0x8122 = 0x8 ∧ fieldN 0x8122 = 0x2) ∧ (fieldOp 0x8123 = 0x8 ∧ fieldN 0x8123 = 0x3) ∧
      (fieldOp 0xEF9E = 0xE ∧ fieldNN 0xEF9E = 0x9E) ∧ (fieldOp 0xE0A1 = 0xE ∧ fieldNN 0xE0A1 = 0xA1) := by decide

theorem witness_ReturnPopsStack : ∃ s : State, s.stack = 0x1000 :: [] ∧ s.pc = 0x0202 :=
  ⟨{ State.reset with stack := [0x1000], pc := 0x0202 }, rfl, rfl⟩

theorem witness_ReturnOnEmptyStackHalts : State.reset.stack = [] := rfl

theorem witness_JumpWithOffset :
    State.reset.legacy = false ∧ legacyReset.legacy = true ∧ (15 : RegIx).val = (0xFFF : Addr12).toNat / 256 ∧
      (0 : RegIx).val = (0x0FF : Addr12).toNat / 256 := by decide

/-- The register clauses of the arithmetic, logic, random and timer statements. -/
theorem witness_register_clauses :
    (0 : RegIx) ≠ 15 ∧ (1 : RegIx) ≠ 0 ∧ (1 : RegIx) ≠ 15 ∧ (14 : RegIx) ≠ 15 := by decide

theorem witness_ShiftByOne :
    (0 : Byte) = (if State.reset.legacy then State.reset.reg 1 else State.reset.reg 0) ∧
      (0xFF : Byte) = (if (({ legacyReset with v := regs [(1, 0xFF)] } : State)).legacy
        then (({ legacyReset with v := regs [(1, 0xFF)] } : State)).reg 1 else 0) := by decide

theorem witness_AddToIndex :
    after 0xF11E { State.reset with i := 0x0FFB, v := regs [(1, 5)] } (fun t => (t.legacy, decide (0x1000 ≤ t.i.toNat))) =
        some (false, true) ∧
      after 0xF11E { State.reset with i := 0x0FFA, v := regs [(1, 5)] } (fun t => (t.legacy, decide (t.i.toNat < 0x1000))) =
        some (false, true) ∧
      after 0xF11E { legacyReset with i := 0x0FFB, v := regs [(1, 5)] } (fun t => t.legacy) = some true := by decide

theorem witness_StoreDecimalDigits : ({ State.reset with i := 0x0FFD } : State).i.toNat + 2 ≤ 0xFFF := by decide

theorem witness_register_runs :
    (({ State.reset with i := 0x0FF0 } : State).i.toNat + (15 : RegIx).val ≤ 0xFFF) ∧
      (({ legacyReset with i := 0x0FFF } : State).i.toNat + (0 : RegIx).val ≤ 0xFFF) ∧
      (15 : RegIx) ≤ 15 ∧ (0 : RegIx) < 1 := by decide

theorem witness_DataOutOfRangeHalts :
    (0 < accessCount (.opFX33 0) ∧ 0xFFF < (0x0FFE : Word).toNat + accessCount (.opFX33 0) - 1) ∧
      (0 < accessCount (.opFX55 1) ∧ 0xFFF < (0x0FFF : Word).toNat + accessCount (.opFX55 1) - 1) ∧
      (0 < accessCount (.opDXYN 0 1 1) ∧ 0xFFF < (0x1000 : Word).toNat + accessCount (.opDXYN 0 1 1) - 1) ∧
      (0 < accessCount (.opFX65 15) ∧ 0xFFF < (0xFFFF : Word).toNat + accessCount (.opFX65 15) - 1) := by decide

theorem witness_DrawSpriteXorsPixels :
    ((0 : Nat) = 0 ∨ (0xFFFF : Word).toNat + 0 - 1 ≤ 0xFFF) ∧ ((15 : Nat) = 0 ∨ (0x0FF1 : Word).toNat + 15 - 1 ≤ 0xFFF) ∧
      (List.range 1).map (fun j => (bytesAt 0x300 [0x80]).read (0x300 + j)) = [0x80] ∧
      spriteBit [0x80] 63 31 63 31 = true ∧ spriteBit [0x80] 0 0 1 0 = false ∧
      (State.reset.fb.flip 63 31).pixel 63 31 = true ∧ (0xFF : Byte).toNat % 64 = 63 ∧ (0xFF : Byte).toNat % 32 = 31 := by
  decide

/-- A first draw that hits nothing and sets a pixel, and a second one over what it left. -/
theorem witness_DrawTwiceRestores :
    ∃ s t : State, exec (.opDXYN 0 1 1) s = .next t ∧ s.i.toNat + 1 ≤ 0x1000 ∧ t.mem = s.mem ∧ t.i = s.i ∧
      (t.reg 0).toNat % 64 = (s.reg 0).toNat % 64 ∧ (t.reg 1).toNat % 32 = (s.reg 1).toNat % 32 ∧ t.reg 15 = 0 ∧ t.fb ≠ s.fb :=
  ⟨{ State.reset with i := 0x0FFF, mem := bytesAt 0xFFF [0x80] }, _, rfl, by decide, rfl, rfl, rfl, rfl, rfl,
    fun h => absurd (congrArg (fun f : Framebuffer => f.pixel 0 0) h) (by decide)⟩

theorem witness_KeySkips :
    (∃ s : State, s.reg 2 = 0x0E ∧ s.key 14 = true ∧ ∃ k : KeyIx, k.val = (s.reg 2).toNat ∧ k.val < 0xF ∧ s.key k = true) ∧
      ¬∃ k : KeyIx, k.val = (0x0F : Byte).toNat ∧ k.val < 0xF :=
  ⟨⟨{ State.reset with v := regs [(2, 0x0E)], keys := down [14] }, by decide, by decide, 14, by decide, by decide, by decide⟩,
    by decide⟩

theorem witness_KeyWaitInstruction :
    (∀ k, State.reset.key k = false) ∧
      (∃ s : State, s.key 15 = true ∧ ∀ j, j < 15 → s.key j = false) ∧ ∃ s : State, s.key 0 = true ∧ s.key 15 = true :=
  ⟨by decide, ⟨{ State.reset with keys := down [15] }, by decide, by decide⟩,
    { State.reset with keys := down [0, 15] }, by decide, by decide⟩

theorem witness_KeyWaitStepStaysPut :
    SequencerTurn (ready [0xF3, 0x0A]) 7 0xA7 ∧ fetch (ready [0xF3, 0x0A]) = .ok 0xF30A ∧
      decodeWord 0xF30A = .ok (.opFX0A 3) ∧ ∀ k, (ready [0xF3, 0x0A]).key k = false :=
  ⟨⟨rfl, rfl, rfl⟩, rfl, rfl, by decide⟩

theorem witness_ClosedGateRunsNothing :
    (ready []).nextTurn = .stepCycle 7 0xA7 ∧ ({ ready [] with halted := true } : State).halted = true ∧
      ({ ready [] with redrawPending := true } : State).redrawPending = true := ⟨rfl, rfl, rfl⟩

theorem witness_PerformedExactlyWhenGateOpen :
    (State.reset.now ≤ 0 ∧ State.reset.halted = false ∧ State.reset.redrawPending = false ∧ stepGate 0 State.reset = true) ∧
      (stepGate 0 { State.reset with halted := true } = false ∧ stepGate 0 { State.reset with redrawPending := true } = false) ∧
      frameGate 0 State.reset = false ∧
      frameGate Config.framePeriodUs { State.reset with halted := true, redrawPending := true } = true := by
  refine ⟨⟨Nat.le_refl _, rfl, rfl, rfl⟩, ⟨rfl, rfl⟩, rfl, ?_⟩
  simp [frameGate, State.reset]

theorem witness_host_turns :
    ({ State.reset with agenda := [.frameTick 3] } : State).nextTurn = .frameTick 3 ∧
      ({ State.reset with agenda := [.keyEvent 0 15 true] } : State).nextTurn = .keyEvent 0 15 true ∧
      ({ State.reset with agenda := [.readFb 1] } : State).nextTurn = .readFb 1 ∧ (1 : KeyIx) ≠ 15 := by decide

theorem witness_TimersCountTicks :
    ({ State.reset with dt := 0xFF, st := 1, agenda := List.replicate 256 (.frameTick 0) } : State).agenda =
      List.replicate 256 (.frameTick 0) ++ [] := (List.append_nil _).symm

theorem witness_StepKeepsMemoryCanonical :
    MemoryCanonical (ready [0xF0, 0x33]) ∧ ∃ t, step (ready [0xF0, 0x33]) = .next t :=
  ⟨Memory.wf_writeAll Memory.wf_nil _ _, _, rfl⟩

theorem witness_StepKeepsReturnAddresses :
    ReturnAddressesInRange { ready [0x24, 0x00] with stack := [0x0002, 0x1000] } ∧
      (afterTurn (.stepCycle 0 0) { ready [0x24, 0x00] with stack := [0x0002, 0x1000] } fun t => t.stack) =
        some [0x0202, 0x0002, 0x1000] := by
  refine ⟨fun a ha => ?_, by decide⟩
  simp only [List.mem_cons, List.not_mem_nil, or_false] at ha
  rcases ha with rfl | rfl <;> decide

/-- A state of every cause that meets the invariant of the fault registers. -/
theorem witness_StepKeepsHaltRecordTrue :
    HaltRecordTrue (ready [0x00, 0xEE]) ∧
      HaltRecordTrue { ready [0x81, 0x28] with halted := true, haltCause := .illegalOpcode, haltInfo := 0x8128 } ∧
      HaltRecordTrue { ready [0x00, 0xEE] with halted := true, haltCause := .stackUnderflow, haltInfo := 0x00EE } ∧
      HaltRecordTrue { ready [] with pc := 0x0FFF, halted := true, haltCause := .fetchOutOfRange, haltInfo := 0x0FFF } ∧
      HaltRecordTrue { ready [0xF1, 0x55] with
        i := 0x0FFF, halted := true, haltCause := .dataOutOfRange, haltInfo := 0x1000 } :=
  ⟨⟨rfl, rfl⟩, ⟨rfl, rfl, _, rfl⟩, ⟨rfl, rfl, rfl, rfl⟩, ⟨rfl, by decide, rfl⟩,
    ⟨rfl, by decide, 0xF155, .opFX55 1, rfl, rfl, by decide, by decide⟩⟩

theorem witness_HaltedStateIsFinal :
    ∃ t, step { State.reset with halted := true, dt := 2, agenda := [.frameTick 0] } = .next t ∧ t.dt = 1 := ⟨_, rfl, rfl⟩

theorem witness_RedrawGateHoldsSequencer :
    ∃ t, step { ready [0x60, 0x01] with redrawPending := true } = .next t ∧ t.redrawPending = true := ⟨_, rfl, rfl⟩

theorem witness_ClocksNeverGoBack : ∃ t, step (ready [0x60, 0x01]) = .next t := ⟨_, rfl⟩

theorem witness_InstructionsWriteOnlyTheirState :
    ∃ t, exec (.op7XNN 1 5) State.reset = .next t ∧ writesReg (.op7XNN 1 5) 2 = false ∧ t.reg 1 ≠ State.reset.reg 1 :=
  ⟨_, rfl, rfl, by decide⟩

/-- The clause of `PC`: an instruction that changes it, and one that puts it back in a fault. -/
theorem witness_InstructionsWriteOnlyTheirState_pc :
    (∃ t, exec (.op1NNN 0x300) State.reset = .next t ∧ t.pc ≠ State.reset.pc) ∧
      ∃ t, exec (.opFX33 0) { State.reset with i := 0x0FFE } = .next t ∧ t.pc ≠ State.reset.pc ∧ t.halted = true :=
  ⟨⟨_, rfl, by decide⟩, _, rfl, by decide, rfl⟩

theorem witness_ModeChangesFourFamiliesOnly :
    modeDependent (Instr.op8XY4 0 1).tag = false ∧ modeDependent (Instr.opFX33 0).tag = false ∧
      modeDependent .t8XY6 = true ∧ modeDependent .tFX65 = true := by decide

/-- The host of the fair run below, whose program is a self-jump at 0x200: a host that performs a
frame tick and a `step_cycle` by turns, each as early as it may. -/
def byTurns (n : Nat) : HostTurn := if n % 2 = 0 then .frameTick 0 else .stepCycle 0 0

theorem byTurns_even (k : Nat) : byTurns (2 * k) = .frameTick 0 := by simp [byTurns]

theorem byTurns_odd (k : Nat) : byTurns (2 * k + 1) = .stepCycle 0 0 := by simp [byTurns]

/-- What stays true along that run. -/
def AtSelfJump (s : State) : Prop := fetch s = .ok 0x1200 ∧ s.pc = 0x0200 ∧ s.halted = false ∧ s.redrawPending = false

theorem perform_at_selfJump {s : State} (h : AtSelfJump s) :
    perform (.stepCycle 0 0) s.takeTurn =
      .next { s.atCycle 0 0 with nextCycleDue := s.nextCycleDue + latency (.op1NNN 0x200) } := by
  obtain ⟨hf, hpc, hh, hr⟩ := h
  have hfc : fetch (s.atCycle 0 0) = .ok 0x1200 := by rw [← hf]; exact fetch_congr rfl rfl
  have hx : exec (.op1NNN 0x200) (s.atCycle 0 0).advance = .next (s.atCycle 0 0) := by
    show Host.Outcome.next ((s.atCycle 0 0).advance.setPc (immAddr 0x200)) = _
    rw [show immAddr 0x200 = (s.atCycle 0 0).pc from hpc.symm]
    rfl
  have hd : decodeWord 0x1200 = .ok (.op1NNN 0x200) := rfl
  rw [perform_stepCycle hh hr, stepCycle_decoded hfc hd, hx, charge_next,
    show (s.atCycle 0 0).halted = false from hh]
  rfl

/-- A fair run, in which the core is never halted. -/
theorem witness_FairRunsProgress :
    ∃ run, FairRun byTurns run ∧ (run 0).halted = false ∧ run 0 = ready [0x12, 0x00] := by
  obtain ⟨run, h0, hrun⟩ := exists_hostRun byTurns (ready [0x12, 0x00])
  have even : ∀ k, AtSelfJump (run (2 * k)) → AtSelfJump (run (2 * k + 1)) ∧
      (run (2 * k + 1)).nextFrameDue = (run (2 * k)).nextFrameDue + Config.framePeriodUs ∧
      (run (2 * k)).nextFrameDue ≤ (run (2 * k + 1)).now := fun k hk => by
    have hs := hrun (2 * k)
    rw [byTurns_even, perform_frameTick] at hs
    rw [← Host.Outcome.next.inj hs]
    exact ⟨⟨hk.1, hk.2.1, hk.2.2.1, rfl⟩, rfl, Nat.le_max_right _ _⟩
  have odd : ∀ k, AtSelfJump (run (2 * k + 1)) → AtSelfJump (run (2 * (k + 1))) ∧
      (run (2 * (k + 1))).nextFrameDue = (run (2 * k + 1)).nextFrameDue := fun k hk => by
    have hs := hrun (2 * k + 1)
    rw [byTurns_odd, perform_at_selfJump hk] at hs
    rw [show 2 * (k + 1) = 2 * k + 1 + 1 from by omega]
    rw [← Host.Outcome.next.inj hs]
    exact ⟨hk, rfl⟩
  have inv : ∀ k, AtSelfJump (run (2 * k)) ∧ k ≤ (run (2 * k)).nextFrameDue := fun k => by
    induction k with
    | zero => exact ⟨by rw [h0]; exact ⟨rfl, rfl, rfl, rfl⟩, Nat.zero_le _⟩
    | succ k ih =>
      obtain ⟨hj, hd, -⟩ := even k ih.1
      obtain ⟨hj2, hd2⟩ := odd k hj
      refine ⟨hj2, ?_⟩
      rw [hd2, hd]
      have := ih.2
      simp only [Config.framePeriodUs]
      omega
  refine ⟨run, ⟨hrun, fun bound => ?_, fun n _ => ?_, fun n _ => ?_⟩, by rw [h0]; rfl, h0⟩
  · exact ⟨2 * bound + 1, le_trans (inv bound).2 (even bound (inv bound).1).2.2⟩
  · exact ⟨2 * n, by omega, 0, byTurns_even n⟩
  · have hj := (even n (inv n).1).1
    exact ⟨2 * n + 1, by omega, ⟨0, 0, byTurns_odd n⟩, hj.2.2.1, hj.2.2.2⟩

theorem witness_TimeDoesNotReachProgram :
    SameButTime (ready [0x60, 0x01]) { ready [0x60, 0x01] with now := 5, nextCycleDue := 9, nextFrameDue := 1 } := rfl

theorem witness_SoundTimerUnobservable :
    SameButSound (ready [0xF0, 0x18]) { ready [0xF0, 0x18] with st := 5 } ∧ ∃ u, step (ready [0xF0, 0x18]) = .next u :=
  ⟨rfl, _, rfl⟩

theorem witness_SelfJumpIsTheEnd :
    SequencerTurn (ready [0x12, 0x00]) 7 0xA7 ∧ fetch (ready [0x12, 0x00]) = .ok (packNNN 0x1 0x200) ∧
      (ready [0x12, 0x00]).pc = (0x200 : Addr12).setWidth 16 := ⟨⟨rfl, rfl, rfl⟩, rfl, rfl⟩


end Sys2Proof.Tests
end

section
/-! SUPPORT. The control transfers (41_control_flow.md): their dispatch, their operands and the state each answers, and
the settled statements about the jumps, the call and the skips on a constant. -/

namespace Sys2Proof

/-! ### Primary dispatch (30_encoding.md R65) -/

section Dispatch

variable {w : Word}

theorem decodeWord_of_op1 (h : fieldOp w = 0x1) : decodeWord w = .ok (.op1NNN (fieldNNN w)) := by
  simp [decodeWord, h]

theorem decodeWord_of_op2 (h : fieldOp w = 0x2) : decodeWord w = .ok (.op2NNN (fieldNNN w)) := by
  simp [decodeWord, h]

theorem decodeWord_of_op3 (h : fieldOp w = 0x3) : decodeWord w = .ok (.op3XNN (fieldX w) (fieldNN w)) := by
  simp [decodeWord, h]

theorem decodeWord_of_op4 (h : fieldOp w = 0x4) : decodeWord w = .ok (.op4XNN (fieldX w) (fieldNN w)) := by
  simp [decodeWord, h]

theorem decodeWord_of_opB (h : fieldOp w = 0xB) : decodeWord w = .ok (.opBNNN (fieldNNN w)) := by
  simp [decodeWord, h]

end Dispatch

namespace Machine

/-! ### Jump operands (30_encoding.md R63, R64; R97) -/

@[simp] theorem immAddr_toNat (nnn : Addr12) : (immAddr nnn).toNat = nnn.toNat :=
  BitVec.toNat_setWidth_of_le (by decide)

@[simp] theorem regExt_toNat (s : State) (x : RegIx) : (s.regExt x).toNat = (s.reg x).toNat :=
  BitVec.toNat_setWidth_of_le (by decide)

theorem topNibble_val (nnn : Addr12) : (topNibble nnn).val = nnn.toNat / 256 := by
  have hlt : nnn.toNat < 4096 := nnn.isLt
  simp only [topNibble, BitVec.val_toFin, BitVec.extractLsb'_toNat, Nat.shiftRight_eq_div_pow]
  omega

/-- The top nibble of `NNN` stands where `X` does in the word (R64). -/
theorem topNibble_fieldNNN (w : Word) : topNibble (fieldNNN w) = fieldX w :=
  congrArg BitVec.toFin (BitVec.extractLsb'_extractLsb'_of_le (by decide))

theorem jumpOffset_legacy {s : State} (h : s.legacy = true) (nnn : Addr12) : s.jumpOffset nnn = s.regExt 0 :=
  if_pos h

theorem jumpOffset_modern {s : State} (h : s.legacy = false) (nnn : Addr12) :
    s.jumpOffset nnn = s.regExt (topNibble nnn) :=
  if_neg (by simp [h])

/-- A 12-bit address plus a byte stays below 2^16, so the sum is exact (R97: it is not reduced). -/
theorem immAddr_add_regExt_toNat (nnn : Addr12) (s : State) (x : RegIx) :
    (immAddr nnn + s.regExt x).toNat = nnn.toNat + (s.reg x).toNat := by
  have hn : nnn.toNat < 4096 := nnn.isLt
  have hr : (s.reg x).toNat < 256 := (s.reg x).isLt
  rw [BitVec.toNat_add, immAddr_toNat, regExt_toNat]
  omega

/-! ### What each control transfer answers -/

section Transfers

variable (nnn : Addr12) (x : RegIx) (nn : Byte) (s : State)

theorem exec_op1NNN : exec (.op1NNN nnn) s = .next (s.setPc (immAddr nnn)) := rfl

theorem exec_op2NNN : exec (.op2NNN nnn) s = .next ((s.push s.pc).setPc (immAddr nnn)) := rfl

theorem exec_op3XNN :
    exec (.op3XNN x nn) s = .next (s.setPc (if s.reg x = nn then s.pc + 2 else s.pc)) := by
  show Host.Outcome.next (s.skipIf (s.reg x == nn)) = _
  simp only [skipIf_eq, beq_iff_eq]

theorem exec_op4XNN :
    exec (.op4XNN x nn) s = .next (s.setPc (if s.reg x ≠ nn then s.pc + 2 else s.pc)) := by
  show Host.Outcome.next (s.skipIf (s.reg x != nn)) = _
  simp only [skipIf_eq, bne_iff_ne]

theorem exec_opBNNN : exec (.opBNNN nnn) s = .next (s.setPc (immAddr nnn + s.jumpOffset nnn)) := rfl

end Transfers

/-! ### The statements -/

/-- Settles O16: the jump sets `PC` to the zero-extended `NNN`. -/
theorem jumpInstruction : Obligations.JumpInstruction := by
  refine ⟨fun w h => decodeWord_of_op1 h, fun nnn s => ⟨_, exec_op1NNN nnn s, ?_, rfl⟩⟩
  rw [setPc_pc, immAddr_toNat]

/-- Settles O17: the call pushes before it sets `PC`, so the entry pushed is the advanced `PC`. -/
theorem callInstruction : Obligations.CallInstruction := by
  refine ⟨fun w h => decodeWord_of_op2 h, fun nnn s => ⟨_, exec_op2NNN nnn s, ?_, ?_, rfl⟩⟩
  · rw [setPc_pc, immAddr_toNat]
  · rw [setPc_stack, push_eq, setStack_stack]

/-- Settles O20: the offset register by mode, and a sum of 12 and 8 bits that no 16-bit `PC` reduces. -/
theorem jumpWithOffset : Obligations.JumpWithOffset := by
  refine ⟨fun w h => ⟨decodeWord_of_opB h, topNibble_fieldNNN w⟩,
    fun nnn s => ⟨_, exec_opBNNN nnn s, fun hlegacy => ?_, fun hmodern x hx => ?_, rfl⟩⟩
  · rw [setPc_pc, jumpOffset_legacy hlegacy, immAddr_add_regExt_toNat]
  · have htop : topNibble nnn = x := Fin.ext ((topNibble_val nnn).trans hx.symm)
    rw [setPc_pc, jumpOffset_modern hmodern, htop, immAddr_add_regExt_toNat]

/-- Settles O21: a skip on a condition is one assignment to `PC`. -/
theorem skipOnConstant : Obligations.SkipOnConstant :=
  ⟨fun _ h => decodeWord_of_op3 h, fun _ h => decodeWord_of_op4 h,
    fun x nn s => ⟨exec_op3XNN x nn s, exec_op4XNN x nn s⟩⟩

end Machine

end Sys2Proof
end

section
/-! SUPPORT. The index register and the data memory (43_index_memory.md): the dispatch of `ANNN`, the state it answers, and
the settled statement about it. -/

namespace Sys2Proof

theorem decodeWord_of_opA {w : Word} (h : fieldOp w = 0xA) : decodeWord w = .ok (.opANNN (fieldNNN w)) := by
  simp [decodeWord, h]

namespace Machine

theorem exec_opANNN (nnn : Addr12) (s : State) : exec (.opANNN nnn) s = .next (s.setIndex (immAddr nnn)) := rfl

/-- Settles O29: `ANNN` is one assignment of the zero-extended `NNN` to `I`, so no other field moves. -/
theorem loadIndex : Obligations.LoadIndex := by
  refine ⟨fun w h => decodeWord_of_opA h, fun nnn s => ⟨_, exec_opANNN nnn s, ?_, rfl⟩⟩
  rw [setIndex_i, immAddr_toNat]

end Machine

end Sys2Proof
end

section
/-! SUPPORT. The keypad (45_keypad_timers.md): the dispatch of the key skips, the key they test, the state they answer, and
the settled statement about them. -/

namespace Sys2Proof

/-! ### Secondary dispatch on `NN` (30_encoding.md R65) -/

section Dispatch

variable {w : Word} (hop : fieldOp w = 0xE)

include hop

theorem decodeWord_of_opE : decodeWord w = decodeOpE w := by
  simp [decodeWord, hop]

theorem decodeWord_of_opE_9E (hnn : fieldNN w = 0x9E) : decodeWord w = .ok (.opEX9E (fieldX w)) := by
  rw [decodeWord_of_opE hop]
  simp [decodeOpE, hnn]

theorem decodeWord_of_opE_A1 (hnn : fieldNN w = 0xA1) : decodeWord w = .ok (.opEXA1 (fieldX w)) := by
  rw [decodeWord_of_opE hop]
  simp [decodeOpE, hnn]

end Dispatch

namespace Machine

/-! ### The tested key and what each key skip answers -/

section KeySkip

variable (x : RegIx) (s : State)

/-- A key is tested exactly when the whole register is its number and stays below the bound (R140). -/
theorem testedKey_eq_some_iff (k : KeyIx) :
    s.testedKey x = some k ↔ k.val = (s.reg x).toNat ∧ k.val < 0xF := by
  have hval (n : Nat) (h : n < 0xF) : (Fin.ofNat 16 n).val = n := Nat.mod_eq_of_lt (by omega)
  by_cases hb : (s.reg x).toNat < 0xF
  · simp only [State.testedKey, Config.keyTestBound, if_pos hb, Option.some.injEq, Fin.ext_iff, hval _ hb]
    omega
  · simp only [State.testedKey, Config.keyTestBound, if_neg hb, reduceCtorEq, false_iff]
    omega

/-- The condition of a key skip, read from the register: `b` is what the tested key must show. -/
theorem exists_testedKey_iff (b : Bool) :
    (∃ k, s.testedKey x = some k ∧ s.key k = b) ↔
      ∃ k : KeyIx, k.val = (s.reg x).toNat ∧ k.val < 0xF ∧ s.key k = b := by
  simp only [testedKey_eq_some_iff, and_assoc]

theorem exec_opEX9E :
    exec (.opEX9E x) s =
      .next (s.setPc (if ∃ k, s.testedKey x = some k ∧ s.key k = true then s.pc + 2 else s.pc)) := by
  show execEX9E x s = _
  cases hk : s.testedKey x with
  | none => simp [execEX9E, hk, State.setPc]
  | some k => simp [execEX9E, hk, skipIf_eq]

theorem exec_opEXA1 :
    exec (.opEXA1 x) s =
      .next (s.setPc (if ∃ k, s.testedKey x = some k ∧ s.key k = false then s.pc + 2 else s.pc)) := by
  show execEXA1 x s = _
  cases hk : s.testedKey x with
  | none => simp [execEXA1, hk, State.setPc]
  | some k => simp [execEXA1, hk, skipIf_eq]

end KeySkip

/-! ### The statement -/

/-- Settles O39: a key skip is one assignment to `PC`, and its condition speaks of a key only for a register below 0xF. -/
theorem keySkips : Obligations.KeySkips := by
  refine ⟨fun w hop => ⟨decodeWord_of_opE_9E hop, decodeWord_of_opE_A1 hop⟩, fun x s => ⟨?_, ?_⟩⟩
  · simp only [exec_opEX9E, exists_testedKey_iff, State.setPc]
  · simp only [exec_opEXA1, exists_testedKey_iff, State.setPc]

end Machine

end Sys2Proof
end

section
/-! SUPPORT. The host's operations (46_scheduler.md): the key latch after a write to one key, the step of a key event, and
the settled statement about it. -/

namespace Sys2Proof.Machine

variable {s : State}

/-! ### The key latch after a write (R29) -/

@[simp] theorem setKey_key_same (k : KeyIx) (b : Bool) : (s.setKey k b).key k = b :=
  Vector.getElem_set_self k.isLt

theorem setKey_key_of_ne {j k : KeyIx} (h : j ≠ k) (b : Bool) : (s.setKey k b).key j = s.key j :=
  Vector.getElem_set_ne k.isLt j.isLt fun hval => h (Fin.ext hval.symm)

/-! ### The step of a key event (R163) -/

/-- A key event has no gate: when it comes next, the step is its write of the latch, at the time it is performed. -/
theorem step_keyEvent {late : Nat} {k : KeyIx} {pressed : Bool} (hn : s.nextTurn = .keyEvent late k pressed) :
    step s = .next ((s.takeTurn.setNow (s.now + late)).setKey k pressed) :=
  congrArg (perform · s.takeTurn) hn

/-! ### The statement -/

/-- Settles O46: the step is one write of the latch, so the other keys and every other field stay. -/
theorem keyEventEffect : Obligations.KeyEventEffect := by
  intro s late k pressed hn
  refine ⟨_, step_keyEvent hn, ?_, fun j hj => ?_, ?_⟩
  · exact setKey_key_same k pressed
  · exact setKey_key_of_ne hj pressed
  · rw [setKey_keys]
    exact keyEvent_eq s late k pressed

end Sys2Proof.Machine
end

section
/-! SUPPORT. The decoder against the opcode map (30_encoding.md R65 to R69): which words each row accepts, what they decode
to and which words are left, and the settled statements about decoding and encoding. -/

namespace Sys2Proof

/-- The instruction of tag `t` whose operands are the fields of `w` (R61 to R63). -/
def Tag.read (t : Tag) (w : Word) : Instr :=
  match t with
  | .t00E0 => .op00E0
  | .t00EE => .op00EE
  | .t1NNN => .op1NNN (fieldNNN w)
  | .t2NNN => .op2NNN (fieldNNN w)
  | .t3XNN => .op3XNN (fieldX w) (fieldNN w)
  | .t4XNN => .op4XNN (fieldX w) (fieldNN w)
  | .t5XY0 => .op5XY0 (fieldX w) (fieldY w)
  | .t6XNN => .op6XNN (fieldX w) (fieldNN w)
  | .t7XNN => .op7XNN (fieldX w) (fieldNN w)
  | .t8XY0 => .op8XY0 (fieldX w) (fieldY w)
  | .t8XY1 => .op8XY1 (fieldX w) (fieldY w)
  | .t8XY2 => .op8XY2 (fieldX w) (fieldY w)
  | .t8XY3 => .op8XY3 (fieldX w) (fieldY w)
  | .t8XY4 => .op8XY4 (fieldX w) (fieldY w)
  | .t8XY5 => .op8XY5 (fieldX w) (fieldY w)
  | .t8XY6 => .op8XY6 (fieldX w) (fieldY w)
  | .t8XY7 => .op8XY7 (fieldX w) (fieldY w)
  | .t8XYE => .op8XYE (fieldX w) (fieldY w)
  | .t9XY0 => .op9XY0 (fieldX w) (fieldY w)
  | .tANNN => .opANNN (fieldNNN w)
  | .tBNNN => .opBNNN (fieldNNN w)
  | .tCXNN => .opCXNN (fieldX w) (fieldNN w)
  | .tDXYN => .opDXYN (fieldX w) (fieldY w) (fieldN w).toNat
  | .tEX9E => .opEX9E (fieldX w)
  | .tEXA1 => .opEXA1 (fieldX w)
  | .tFX07 => .opFX07 (fieldX w)
  | .tFX0A => .opFX0A (fieldX w)
  | .tFX15 => .opFX15 (fieldX w)
  | .tFX18 => .opFX18 (fieldX w)
  | .tFX1E => .opFX1E (fieldX w)
  | .tFX29 => .opFX29 (fieldX w)
  | .tFX33 => .opFX33 (fieldX w)
  | .tFX55 => .opFX55 (fieldX w)
  | .tFX65 => .opFX65 (fieldX w)

@[simp] theorem tag_read (t : Tag) (w : Word) : (t.read w).tag = t := by
  cases t <;> rfl

/-- The four groups of words that are no instruction (R69). -/
def IllegalWord (w : Word) : Prop :=
  (fieldOp w = 0x0 ∧ fieldNNN w ≠ 0x0E0 ∧ fieldNNN w ≠ 0x0EE) ∨
  (fieldOp w = 0x8 ∧ fieldN w ∈ [0x8, 0x9, 0xA, 0xB, 0xC, 0xD, 0xF]) ∨
  (fieldOp w = 0xE ∧ fieldNN w ≠ 0x9E ∧ fieldNN w ≠ 0xA1) ∨
  (fieldOp w = 0xF ∧ fieldNN w ∉ [0x07, 0x0A, 0x15, 0x18, 0x1E, 0x29, 0x33, 0x55, 0x65])

/-! ### The rows, by the fields they fix -/

/-- What the row of a tag asks of the fields of a word (R67). -/
def Tag.Fields (t : Tag) (w : Word) : Prop :=
  match t with
  | .t00E0 => fieldOp w = 0x0 ∧ fieldNNN w = 0x0E0
  | .t00EE => fieldOp w = 0x0 ∧ fieldNNN w = 0x0EE
  | .t1NNN => fieldOp w = 0x1
  | .t2NNN => fieldOp w = 0x2
  | .t3XNN => fieldOp w = 0x3
  | .t4XNN => fieldOp w = 0x4
  | .t5XY0 => fieldOp w = 0x5
  | .t6XNN => fieldOp w = 0x6
  | .t7XNN => fieldOp w = 0x7
  | .t8XY0 => fieldOp w = 0x8 ∧ fieldN w = 0x0
  | .t8XY1 => fieldOp w = 0x8 ∧ fieldN w = 0x1
  | .t8XY2 => fieldOp w = 0x8 ∧ fieldN w = 0x2
  | .t8XY3 => fieldOp w = 0x8 ∧ fieldN w = 0x3
  | .t8XY4 => fieldOp w = 0x8 ∧ fieldN w = 0x4
  | .t8XY5 => fieldOp w = 0x8 ∧ fieldN w = 0x5
  | .t8XY6 => fieldOp w = 0x8 ∧ fieldN w = 0x6
  | .t8XY7 => fieldOp w = 0x8 ∧ fieldN w = 0x7
  | .t8XYE => fieldOp w = 0x8 ∧ fieldN w = 0xE
  | .t9XY0 => fieldOp w = 0x9
  | .tANNN => fieldOp w = 0xA
  | .tBNNN => fieldOp w = 0xB
  | .tCXNN => fieldOp w = 0xC
  | .tDXYN => fieldOp w = 0xD
  | .tEX9E => fieldOp w = 0xE ∧ fieldNN w = 0x9E
  | .tEXA1 => fieldOp w = 0xE ∧ fieldNN w = 0xA1
  | .tFX07 => fieldOp w = 0xF ∧ fieldNN w = 0x07
  | .tFX0A => fieldOp w = 0xF ∧ fieldNN w = 0x0A
  | .tFX15 => fieldOp w = 0xF ∧ fieldNN w = 0x15
  | .tFX18 => fieldOp w = 0xF ∧ fieldNN w = 0x18
  | .tFX1E => fieldOp w = 0xF ∧ fieldNN w = 0x1E
  | .tFX29 => fieldOp w = 0xF ∧ fieldNN w = 0x29
  | .tFX33 => fieldOp w = 0xF ∧ fieldNN w = 0x33
  | .tFX55 => fieldOp w = 0xF ∧ fieldNN w = 0x55
  | .tFX65 => fieldOp w = 0xF ∧ fieldNN w = 0x65

section Rows

variable {w : Word} {t : Tag} {i : Instr}

/-- Mask and match of a row are the condition on its fields (R67). -/
theorem row_iff_fields (w : Word) (t : Tag) : w &&& t.maskWord = t.matchWord ↔ t.Fields w := by
  cases t
  case t00E0 => exact match_all w 0x0 0x0E0
  case t00EE => exact match_all w 0x0 0x0EE
  case t8XY0 | t8XY1 | t8XY2 | t8XY3 | t8XY4 | t8XY5 | t8XY6 | t8XY7 | t8XYE =>
    rw [Tag.Fields, ← match_opN]; rfl
  case tEX9E | tEXA1 | tFX07 | tFX0A | tFX15 | tFX18 | tFX1E | tFX29 | tFX33 | tFX55 | tFX65 =>
    rw [Tag.Fields, ← match_opNN]; rfl
  all_goals rw [Tag.Fields, ← match_op]; rfl

/-- A word of a row decodes to the row's instruction, whose operands are the word's fields (R65). -/
theorem decodeWord_of_fields (h : t.Fields w) : decodeWord w = .ok (t.read w) := by
  cases t
  case t00E0 | t00EE => simp [decodeWord, decodeOp0, h.1, h.2, Tag.read]
  case t8XY0 | t8XY1 | t8XY2 | t8XY3 | t8XY4 | t8XY5 | t8XY6 | t8XY7 | t8XYE =>
    simp [decodeWord, decodeOp8, h.1, h.2, Tag.read]
  case tEX9E | tEXA1 => simp [decodeWord, decodeOpE, h.1, h.2, Tag.read]
  case tFX07 | tFX0A | tFX15 | tFX18 | tFX1E | tFX29 | tFX33 | tFX55 | tFX65 =>
    simp [decodeWord, decodeOpF, h.1, h.2, Tag.read]
  all_goals
    rw [Tag.Fields] at h
    simp [decodeWord, h, Tag.read]

/-- Every value of `op` (R61). -/
theorem op_cases (op : Nibble) :
    op ∈ [0x0, 0x1, 0x2, 0x3, 0x4, 0x5, 0x6, 0x7, 0x8, 0x9, 0xA, 0xB, 0xC, 0xD, 0xE, 0xF] := by
  revert op; decide

/-- The digits `N` of `8XYn` that are no illegal ones (R67, R69 (b)). -/
theorem legalN_cases {n : Nibble} (h : n ∉ [0x8, 0x9, 0xA, 0xB, 0xC, 0xD, 0xF]) :
    n = 0x0 ∨ n = 0x1 ∨ n = 0x2 ∨ n = 0x3 ∨ n = 0x4 ∨ n = 0x5 ∨ n = 0x6 ∨ n = 0x7 ∨ n = 0xE := by
  revert n; decide

/-- Every word stands in a row of the opcode map or in a group of illegal words (R67, R69). -/
theorem fields_or_illegal (w : Word) : (∃ t : Tag, t.Fields w) ∨ IllegalWord w := by
  have hop := op_cases (fieldOp w)
  simp only [List.mem_cons, List.not_mem_nil, or_false] at hop
  obtain h | h | h | h | h | h | h | h | h | h | h | h | h | h | h | h := hop
  · by_cases h1 : fieldNNN w = 0x0E0
    · exact .inl ⟨.t00E0, h, h1⟩
    · by_cases h2 : fieldNNN w = 0x0EE
      · exact .inl ⟨.t00EE, h, h2⟩
      · exact .inr (.inl ⟨h, h1, h2⟩)
  · exact .inl ⟨.t1NNN, h⟩
  · exact .inl ⟨.t2NNN, h⟩
  · exact .inl ⟨.t3XNN, h⟩
  · exact .inl ⟨.t4XNN, h⟩
  · exact .inl ⟨.t5XY0, h⟩
  · exact .inl ⟨.t6XNN, h⟩
  · exact .inl ⟨.t7XNN, h⟩
  · by_cases hn : fieldN w ∈ [0x8, 0x9, 0xA, 0xB, 0xC, 0xD, 0xF]
    · exact .inr (.inr (.inl ⟨h, hn⟩))
    · obtain hn | hn | hn | hn | hn | hn | hn | hn | hn := legalN_cases hn
      · exact .inl ⟨.t8XY0, h, hn⟩
      · exact .inl ⟨.t8XY1, h, hn⟩
      · exact .inl ⟨.t8XY2, h, hn⟩
      · exact .inl ⟨.t8XY3, h, hn⟩
      · exact .inl ⟨.t8XY4, h, hn⟩
      · exact .inl ⟨.t8XY5, h, hn⟩
      · exact .inl ⟨.t8XY6, h, hn⟩
      · exact .inl ⟨.t8XY7, h, hn⟩
      · exact .inl ⟨.t8XYE, h, hn⟩
  · exact .inl ⟨.t9XY0, h⟩
  · exact .inl ⟨.tANNN, h⟩
  · exact .inl ⟨.tBNNN, h⟩
  · exact .inl ⟨.tCXNN, h⟩
  · exact .inl ⟨.tDXYN, h⟩
  · by_cases h1 : fieldNN w = 0x9E
    · exact .inl ⟨.tEX9E, h, h1⟩
    · by_cases h2 : fieldNN w = 0xA1
      · exact .inl ⟨.tEXA1, h, h2⟩
      · exact .inr (.inr (.inr (.inl ⟨h, h1, h2⟩)))
  · by_cases hnn : fieldNN w ∈ [0x07, 0x0A, 0x15, 0x18, 0x1E, 0x29, 0x33, 0x55, 0x65]
    · simp only [List.mem_cons, List.not_mem_nil, or_false] at hnn
      obtain hn | hn | hn | hn | hn | hn | hn | hn | hn := hnn
      · exact .inl ⟨.tFX07, h, hn⟩
      · exact .inl ⟨.tFX0A, h, hn⟩
      · exact .inl ⟨.tFX15, h, hn⟩
      · exact .inl ⟨.tFX18, h, hn⟩
      · exact .inl ⟨.tFX1E, h, hn⟩
      · exact .inl ⟨.tFX29, h, hn⟩
      · exact .inl ⟨.tFX33, h, hn⟩
      · exact .inl ⟨.tFX55, h, hn⟩
      · exact .inl ⟨.tFX65, h, hn⟩
    · exact .inr (.inr (.inr (.inr ⟨h, hnn⟩)))

/-- A word of one of the four groups decodes to nothing (R69). -/
theorem decodeWord_of_illegal (h : IllegalWord w) : ∃ r, decodeWord w = .error r := by
  obtain ⟨hop, h1, h2⟩ | ⟨hop, hn⟩ | ⟨hop, h1, h2⟩ | ⟨hop, hnn⟩ := h
  · have hd : decodeWord w = decodeOp0 w := by simp [decodeWord, hop]
    rw [hd, decodeOp0]
    split
    · exact absurd (BitVec.eq_of_toNat_eq ‹_›) h1
    · exact absurd (BitVec.eq_of_toNat_eq ‹_›) h2
    · exact ⟨_, rfl⟩
  · simp only [List.mem_cons, List.not_mem_nil, or_false] at hn
    obtain hn | hn | hn | hn | hn | hn | hn := hn <;> simp [decodeWord, hop, decodeOp8, hn]
  · rw [decodeWord_of_opE hop, decodeOpE]
    split
    · exact absurd (BitVec.eq_of_toNat_eq ‹_›) h1
    · exact absurd (BitVec.eq_of_toNat_eq ‹_›) h2
    · exact ⟨_, rfl⟩
  · have hd : decodeWord w = decodeOpF w := by simp [decodeWord, hop]
    have ne : ∀ {nn : Byte}, nn ∈ [0x07, 0x0A, 0x15, 0x18, 0x1E, 0x29, 0x33, 0x55, 0x65] →
        (fieldNN w).toNat ≠ nn.toNat := fun hmem he => hnn (BitVec.eq_of_toNat_eq he ▸ hmem)
    rw [hd, decodeOpF]
    split
    case h_1 he => exact absurd he (ne (nn := 0x07) (by decide))
    case h_2 he => exact absurd he (ne (nn := 0x0A) (by decide))
    case h_3 he => exact absurd he (ne (nn := 0x15) (by decide))
    case h_4 he => exact absurd he (ne (nn := 0x18) (by decide))
    case h_5 he => exact absurd he (ne (nn := 0x1E) (by decide))
    case h_6 he => exact absurd he (ne (nn := 0x29) (by decide))
    case h_7 he => exact absurd he (ne (nn := 0x33) (by decide))
    case h_8 he => exact absurd he (ne (nn := 0x55) (by decide))
    case h_9 he => exact absurd he (ne (nn := 0x65) (by decide))
    case h_10 => exact ⟨_, rfl⟩

/-! ### The decoder and the rows -/

/-- A word decodes exactly as the row it stands in says. -/
theorem decodeWord_eq_ok_iff : decodeWord w = .ok i ↔ ∃ t : Tag, t.Fields w ∧ i = t.read w := by
  constructor
  · intro h
    obtain ⟨t, ht⟩ | hill := fields_or_illegal w
    · exact ⟨t, ht, Except.ok.inj (h.symm.trans (decodeWord_of_fields ht))⟩
    · obtain ⟨r, hr⟩ := decodeWord_of_illegal hill
      rw [hr] at h
      cases h
  · rintro ⟨t, ht, rfl⟩
    exact decodeWord_of_fields ht

theorem decodeWord_eq_error_iff : (∃ r, decodeWord w = .error r) ↔ IllegalWord w := by
  constructor
  · rintro ⟨r, hr⟩
    obtain ⟨t, ht⟩ | hill := fields_or_illegal w
    · rw [decodeWord_of_fields ht] at hr
      cases hr
    · exact hill
  · exact decodeWord_of_illegal

/-! ### The encoder and the rows -/

/-- The word of an instruction stands in the instruction's row (R67). -/
theorem encodeWord_mem_row (i : Instr) : encodeWord i &&& i.tag.maskWord = i.tag.matchWord :=
  match i with
  | .op00E0 => Laws.EncodedInRow.op00E0
  | .op00EE => Laws.EncodedInRow.op00EE
  | .op1NNN nnn => Laws.EncodedInRow.op1NNN nnn
  | .op2NNN nnn => Laws.EncodedInRow.op2NNN nnn
  | .op3XNN x nn => Laws.EncodedInRow.op3XNN x nn
  | .op4XNN x nn => Laws.EncodedInRow.op4XNN x nn
  | .op5XY0 x y => Laws.EncodedInRow.op5XY0 x y
  | .op6XNN x nn => Laws.EncodedInRow.op6XNN x nn
  | .op7XNN x nn => Laws.EncodedInRow.op7XNN x nn
  | .op8XY0 x y => Laws.EncodedInRow.op8XY0 x y
  | .op8XY1 x y => Laws.EncodedInRow.op8XY1 x y
  | .op8XY2 x y => Laws.EncodedInRow.op8XY2 x y
  | .op8XY3 x y => Laws.EncodedInRow.op8XY3 x y
  | .op8XY4 x y => Laws.EncodedInRow.op8XY4 x y
  | .op8XY5 x y => Laws.EncodedInRow.op8XY5 x y
  | .op8XY6 x y => Laws.EncodedInRow.op8XY6 x y
  | .op8XY7 x y => Laws.EncodedInRow.op8XY7 x y
  | .op8XYE x y => Laws.EncodedInRow.op8XYE x y
  | .op9XY0 x y => Laws.EncodedInRow.op9XY0 x y
  | .opANNN nnn => Laws.EncodedInRow.opANNN nnn
  | .opBNNN nnn => Laws.EncodedInRow.opBNNN nnn
  | .opCXNN x nn => Laws.EncodedInRow.opCXNN x nn
  | .opDXYN x y n => Laws.EncodedInRow.opDXYN x y n
  | .opEX9E x => Laws.EncodedInRow.opEX9E x
  | .opEXA1 x => Laws.EncodedInRow.opEXA1 x
  | .opFX07 x => Laws.EncodedInRow.opFX07 x
  | .opFX0A x => Laws.EncodedInRow.opFX0A x
  | .opFX15 x => Laws.EncodedInRow.opFX15 x
  | .opFX18 x => Laws.EncodedInRow.opFX18 x
  | .opFX1E x => Laws.EncodedInRow.opFX1E x
  | .opFX29 x => Laws.EncodedInRow.opFX29 x
  | .opFX33 x => Laws.EncodedInRow.opFX33 x
  | .opFX55 x => Laws.EncodedInRow.opFX55 x
  | .opFX65 x => Laws.EncodedInRow.opFX65 x

/-- The fields of the word of a well-formed instruction are its operands (R61 to R63). -/
theorem read_encodeWord (h : i.wf = true) : i.tag.read (encodeWord i) = i := by
  cases i
  case opDXYN x y n =>
    have hn : n < 16 := by simpa [Instr.wf] using h
    simp [Instr.tag, encodeWord, Tag.read, Nat.mod_eq_of_lt hn]
  all_goals simp [Instr.tag, encodeWord, Tag.read]

theorem decodeWord_encodeWord (h : i.wf = true) : decodeWord (encodeWord i) = .ok i := by
  have hrow := (row_iff_fields (encodeWord i) i.tag).1 (encodeWord_mem_row i)
  rw [decodeWord_of_fields hrow, read_encodeWord h]

/-- Every instruction read from the fields of a word is well formed (R70). -/
theorem wf_read (t : Tag) (w : Word) : (t.read w).wf = true := by
  cases t
  case tDXYN => exact decide_eq_true (fieldN w).isLt
  all_goals rfl

/-- Clearing the field `N` of a word (R66). -/
theorem and_clearN (w : Word) : w &&& 0xFFF0 = packXYN (fieldOp w) (fieldX w) (fieldY w) 0 := by
  conv_lhs => rw [← packXYN_fields w]
  generalize fieldOp w = op
  generalize fieldX w = x
  generalize fieldY w = y
  generalize fieldN w = n
  apply BitVec.eq_of_getLsbD_eq
  intro k hk
  rw [BitVec.getLsbD_and, getLsbD_packXYN, getLsbD_packXYN]
  interval_cases k <;> simp

theorem packNNN_of_fields {op : Nibble} (hop : fieldOp w = op) : packNNN op (fieldNNN w) = w := by
  rw [← hop, packNNN_fields]

theorem packXNN_of_fields {op : Nibble} {nn : Byte} (hop : fieldOp w = op) (hnn : fieldNN w = nn) :
    packXNN op (fieldX w) nn = w := by
  rw [← hop, ← hnn, packXNN_fields]

theorem packXYN_of_fields {op n : Nibble} (hop : fieldOp w = op) (hn : fieldN w = n) :
    packXYN op (fieldX w) (fieldY w) n = w := by
  rw [← hop, ← hn, packXYN_fields]

/-- The encoding of what a word of a row decodes to, the field `N` of `5XYn` and `9XYn` being ignored (R66). -/
theorem encodeWord_read (h : t.Fields w) :
    encodeWord (t.read w) = if fieldOp w = 0x5 ∨ fieldOp w = 0x9 then w &&& 0xFFF0 else w := by
  cases t
  case t5XY0 | t9XY0 =>
    rw [Tag.Fields] at h
    rw [if_pos (by simp [h]), and_clearN, h]
    rfl
  case t00E0 | t00EE =>
    obtain ⟨hop, hnnn⟩ := h
    rw [if_neg (by rw [hop]; decide), ← packNNN_fields w, hop, hnnn]
    rfl
  case t8XY0 | t8XY1 | t8XY2 | t8XY3 | t8XY4 | t8XY5 | t8XY6 | t8XY7 | t8XYE =>
    obtain ⟨hop, hn⟩ := h
    rw [if_neg (by rw [hop]; decide)]
    exact packXYN_of_fields hop hn
  case tEX9E | tEXA1 | tFX07 | tFX0A | tFX15 | tFX18 | tFX1E | tFX29 | tFX33 | tFX55 | tFX65 =>
    obtain ⟨hop, hnn⟩ := h
    rw [if_neg (by rw [hop]; decide)]
    exact packXNN_of_fields hop hnn
  case t1NNN | t2NNN | tANNN | tBNNN =>
    rw [Tag.Fields] at h
    rw [if_neg (by rw [h]; decide)]
    exact packNNN_of_fields h
  case tDXYN =>
    rw [Tag.Fields] at h
    rw [if_neg (by rw [h]; decide)]
    exact packXYN_of_fields h (by simp)
  all_goals
    rw [Tag.Fields] at h
    rw [if_neg (by rw [h]; decide)]
    exact packXNN_of_fields h rfl

end Rows

/-! ### The statements -/

/-- Settles O4: each word stands in the row, or in the illegal group, that the spec names, so both sides compute. -/
theorem wordsOfSpecDecode : Obligations.WordsOfSpecDecode :=
  ⟨rfl, rfl, rfl, rfl, rfl, rfl, rfl, rfl, rfl, rfl, rfl, rfl, rfl, rfl⟩

/-- Settles O5: a row is a condition on the fields, and the decoder reads the instruction of that row. -/
theorem decoderFollowsOpcodeMap : Obligations.DecoderFollowsOpcodeMap := by
  intro w t
  rw [row_iff_fields]
  constructor
  · rintro ⟨i, hi, rfl⟩
    obtain ⟨t, ht, rfl⟩ := decodeWord_eq_ok_iff.1 hi
    rwa [tag_read]
  · exact fun ht => ⟨t.read w, decodeWord_of_fields ht, tag_read t w⟩

/-- Settles O6: the rows and the four groups exhaust the words and exclude each other. -/
theorem illegalWordsExactly : Obligations.IllegalWordsExactly :=
  fun _ => decodeWord_eq_error_iff

/-- Settles O7: the word of an instruction stands in its row, and its fields are the operands. -/
theorem decodeEncodeRoundTrip : Obligations.DecodeEncodeRoundTrip := by
  intro i h
  rw [decode_encode_word, decodeWord_encodeWord h]
  rfl

/-- Settles O8: a word that decodes stands in a row, where only the `N` of `5XYn` and `9XYn` is no operand. -/
theorem encodeDecodeCanonical : Obligations.EncodeDecodeCanonical := by
  intro w i h
  obtain ⟨t, ht, rfl⟩ := decodeWord_eq_ok_iff.1 h
  exact ⟨wf_read t w, encodeWord_read ht⟩

end Sys2Proof
end

section
/-! SUPPORT. The return and the skips on two registers (41_control_flow.md): their dispatch, the state each answers, and the
settled statements about them. -/

namespace Sys2Proof

theorem decodeWord_of_op5 {w : Word} (h : fieldOp w = 0x5) : decodeWord w = .ok (.op5XY0 (fieldX w) (fieldY w)) :=
  decodeWord_of_fields (t := .t5XY0) h

theorem decodeWord_of_op9 {w : Word} (h : fieldOp w = 0x9) : decodeWord w = .ok (.op9XY0 (fieldX w) (fieldY w)) :=
  decodeWord_of_fields (t := .t9XY0) h

namespace Machine

section Transfers

variable (x y : RegIx) {s : State}

theorem exec_op00EE_cons {top : Word} {rest : List Word} (h : s.stack = top :: rest) :
    exec .op00EE s = .next ((s.setStack rest).setPc top) := by
  simp [exec, exec00EE, h]

theorem exec_op00EE_nil (h : s.stack = []) : exec .op00EE s = .next (abandon .stackUnderflow 0x00EE s) := by
  simp [exec, exec00EE, h]

variable (s)

theorem exec_op5XY0 :
    exec (.op5XY0 x y) s = .next (s.setPc (if s.reg x = s.reg y then s.pc + 2 else s.pc)) := by
  show Host.Outcome.next (s.skipIf (s.reg x == s.reg y)) = _
  simp only [skipIf_eq, beq_iff_eq]

theorem exec_op9XY0 :
    exec (.op9XY0 x y) s = .next (s.setPc (if s.reg x ≠ s.reg y then s.pc + 2 else s.pc)) := by
  show Host.Outcome.next (s.skipIf (s.reg x != s.reg y)) = _
  simp only [skipIf_eq, bne_iff_ne]

end Transfers

/-- Settles O18: with an entry on the stack the return is two assignments, to the stack and to `PC`. -/
theorem returnPopsStack : Obligations.ReturnPopsStack :=
  fun _ _ _ h => exec_op00EE_cons h

/-- Settles O19: on an empty stack the return undoes the advance of `PC` and raises. -/
theorem returnOnEmptyStackHalts : Obligations.ReturnOnEmptyStackHalts :=
  fun _ h => exec_op00EE_nil h

/-- Settles O22: the dispatch on `op` alone, and a skip as one assignment to `PC`. -/
theorem skipOnRegisters : Obligations.SkipOnRegisters :=
  ⟨fun _ h => decodeWord_of_op5 h, fun _ h => decodeWord_of_op9 h,
    fun x y s => ⟨exec_op5XY0 x y s, exec_op9XY0 x y s⟩⟩

end Machine

end Sys2Proof
end

section
/-! SUPPORT. Constants, arithmetic, logic, shifts and random (42_alu.md): the state each instruction answers, as one write
of a register or one write of a result and its flag, and the settled statements about them. -/

namespace Sys2Proof.Machine

/-! ### A result and its flag (10_state.md R12) -/

section ResultFlag

variable (s : State) {x r : RegIx} (b : Byte) (f : Bool)

theorem flagByte_toNat : (flagByte f).toNat = if f then 1 else 0 := by
  cases f <;> rfl

/-- `VF` holds the flag, whatever register the result went to. -/
theorem setResultFlag_flag : ((s.setResultFlag x b f).reg 15).toNat = if f then 1 else 0 := by
  rw [reg_setResultFlag, if_pos rfl, flagByte_toNat]

theorem setResultFlag_result (hx : x ≠ 15) : (s.setResultFlag x b f).reg x = b := by
  rw [reg_setResultFlag, if_neg hx, if_pos rfl]

theorem setResultFlag_other (hx : r ≠ x) (hf : r ≠ 15) : (s.setResultFlag x b f).reg r = s.reg r := by
  rw [reg_setResultFlag, if_neg hf, if_neg hx]

end ResultFlag

/-! ### The flags and the results as numbers (42_alu.md R112) -/

section Values

variable (a b : Byte)

theorem carryOut_ite : (if carryOut a b then 1 else 0) = if 255 < a.toNat + b.toNat then 1 else 0 := by
  simp only [carryOut, decide_eq_true_eq]

theorem noBorrow_ite : (if noBorrow a b then 1 else 0) = if b.toNat ≤ a.toNat then 1 else 0 := by
  simp only [noBorrow, decide_eq_true_eq]

theorem sub_toNat : (a - b).toNat = (256 + a.toNat - b.toNat) % 256 := by
  have hb : b.toNat < 256 := b.isLt
  rw [BitVec.toNat_sub]
  omega

theorem outRight_ite : (if outRight a then 1 else 0) = a.toNat % 2 := by
  have h : a.toNat % 2 = 0 ∨ a.toNat % 2 = 1 := by omega
  rcases h with h | h <;> simp [outRight, BitVec.getLsbD, Nat.testBit_zero, h]

theorem outLeft_ite : (if outLeft a then 1 else 0) = a.toNat / 128 := by
  have ha : a.toNat < 256 := a.isLt
  have h : a.toNat / 128 = 0 ∨ a.toNat / 128 = 1 := by omega
  rcases h with h | h <;> simp [outLeft, BitVec.getLsbD, Nat.testBit_eq_decide_div_mod_eq, h]

theorem shiftRight_toNat : (a >>> 1).toNat = a.toNat / 2 := by
  simp [BitVec.toNat_ushiftRight, Nat.shiftRight_eq_div_pow]

theorem shiftLeft_toNat : (a <<< 1).toNat = a.toNat * 2 % 256 := by
  simp [BitVec.toNat_shiftLeft, Nat.shiftLeft_eq]

end Values

/-! ### What each instruction answers -/

section Results

variable (x y : RegIx) (nn : Byte) (s : State)

theorem exec_op6XNN : exec (.op6XNN x nn) s = .next (s.setReg x nn) := rfl
theorem exec_op7XNN : exec (.op7XNN x nn) s = .next (s.setReg x (s.reg x + nn)) := rfl
theorem exec_op8XY0 : exec (.op8XY0 x y) s = .next (s.setReg x (s.reg y)) := rfl
theorem exec_op8XY1 : exec (.op8XY1 x y) s = .next (s.setReg x (s.reg x ||| s.reg y)) := rfl
theorem exec_op8XY2 : exec (.op8XY2 x y) s = .next (s.setReg x (s.reg x &&& s.reg y)) := rfl
theorem exec_op8XY3 : exec (.op8XY3 x y) s = .next (s.setReg x (s.reg x ^^^ s.reg y)) := rfl
theorem exec_op8XY4 : exec (.op8XY4 x y) s =
    .next (s.setResultFlag x (s.reg x + s.reg y) (carryOut (s.reg x) (s.reg y))) := rfl
theorem exec_op8XY5 : exec (.op8XY5 x y) s =
    .next (s.setResultFlag x (s.reg x - s.reg y) (noBorrow (s.reg x) (s.reg y))) := rfl
theorem exec_op8XY6 : exec (.op8XY6 x y) s =
    .next (s.setResultFlag x (s.shiftSource x y >>> 1) (outRight (s.shiftSource x y))) := rfl
theorem exec_op8XY7 : exec (.op8XY7 x y) s =
    .next (s.setResultFlag x (s.reg y - s.reg x) (noBorrow (s.reg y) (s.reg x))) := rfl
theorem exec_op8XYE : exec (.op8XYE x y) s =
    .next (s.setResultFlag x (s.shiftSource x y <<< 1) (outLeft (s.shiftSource x y))) := rfl
theorem exec_opCXNN : exec (.opCXNN x nn) s = .next (s.setReg x (s.rnd &&& nn)) := rfl

end Results

/-- An instruction that writes one register: that register takes the value, and nothing else changes. -/
theorem writesOneRegister {i : Instr} {s : State} {x : RegIx} {b : Byte} (h : exec i s = .next (s.setReg x b)) :
    ∃ t, exec i s = .next t ∧ t.reg x = b ∧ (∀ r, r ≠ x → t.reg r = s.reg r) ∧ t = { s with v := t.v } :=
  ⟨_, h, reg_setReg_same s x b, fun _ hr => reg_setReg_other s b hr, rfl⟩

/-- An instruction that writes a result and its flag: the flag stands in `VF`, the result in every other destination, and
nothing else changes. -/
theorem writesResultFlag {i : Instr} {s : State} {x : RegIx} {b : Byte} {f : Bool}
    (h : exec i s = .next (s.setResultFlag x b f)) :
    ∃ t, exec i s = .next t ∧ (t.reg 15).toNat = (if f then 1 else 0) ∧ (x ≠ 15 → t.reg x = b) ∧
      (∀ r, r ≠ x → r ≠ 15 → t.reg r = s.reg r) ∧ t = { s with v := t.v } :=
  ⟨_, h, setResultFlag_flag s b f, setResultFlag_result s b f, fun _ => setResultFlag_other s b f,
    setResultFlag_eq s x b f⟩

/-! ### The statements -/

/-- Settles O23: one write of a register, of the constant or of the sum. -/
theorem loadAndAddConstant : Obligations.LoadAndAddConstant := by
  refine ⟨fun w h => decodeWord_of_fields (t := .t6XNN) h, fun w h => decodeWord_of_fields (t := .t7XNN) h,
    fun x nn s => ⟨writesOneRegister (exec_op6XNN x nn s), ?_⟩⟩
  obtain ⟨t, ht, hx, hframe⟩ := writesOneRegister (exec_op7XNN x nn s)
  exact ⟨t, ht, by rw [hx, BitVec.toNat_add], hframe⟩

/-- Settles O24: one write of a register, of the bitwise function of the two operands. -/
theorem copyAndLogic : Obligations.CopyAndLogic := by
  refine ⟨fun w hop => ⟨fun hn => ?_, fun hn => ?_, fun hn => ?_, fun hn => ?_⟩,
    fun x y s => ⟨writesOneRegister (exec_op8XY0 x y s), ?_, ?_, ?_⟩⟩
  · exact decodeWord_of_fields (t := .t8XY0) ⟨hop, hn⟩
  · exact decodeWord_of_fields (t := .t8XY1) ⟨hop, hn⟩
  · exact decodeWord_of_fields (t := .t8XY2) ⟨hop, hn⟩
  · exact decodeWord_of_fields (t := .t8XY3) ⟨hop, hn⟩
  · obtain ⟨t, ht, hx, hframe⟩ := writesOneRegister (exec_op8XY1 x y s)
    exact ⟨t, ht, fun k => by rw [hx, BitVec.getLsbD_or], hframe⟩
  · obtain ⟨t, ht, hx, hframe⟩ := writesOneRegister (exec_op8XY2 x y s)
    exact ⟨t, ht, fun k => by rw [hx, BitVec.getLsbD_and], hframe⟩
  · obtain ⟨t, ht, hx, hframe⟩ := writesOneRegister (exec_op8XY3 x y s)
    exact ⟨t, ht, fun k => by rw [hx, BitVec.getLsbD_xor], hframe⟩

/-- Settles O25: the sum and its carry as a result and its flag. -/
theorem addWithCarryOut : Obligations.AddWithCarryOut := by
  intro x y s
  obtain ⟨t, ht, hflag, hx, hframe⟩ := writesResultFlag (exec_op8XY4 x y s)
  exact ⟨t, ht, by rw [hflag, carryOut_ite], fun h => by rw [hx h, BitVec.toNat_add], hframe⟩

/-- Settles O26: the difference and its no-borrow as a result and its flag. -/
theorem subtractWithNoBorrow : Obligations.SubtractWithNoBorrow := by
  intro x y s
  constructor
  · obtain ⟨t, ht, hflag, hx, hframe⟩ := writesResultFlag (exec_op8XY5 x y s)
    exact ⟨t, ht, by rw [hflag, noBorrow_ite], fun h => by rw [hx h, sub_toNat], hframe⟩
  · obtain ⟨t, ht, hflag, hx, hframe⟩ := writesResultFlag (exec_op8XY7 x y s)
    exact ⟨t, ht, by rw [hflag, noBorrow_ite], fun h => by rw [hx h, sub_toNat], hframe⟩

/-- Settles O27: the shifted value and the bit shifted out as a result and its flag. -/
theorem shiftByOne : Obligations.ShiftByOne := by
  rintro x y s _ rfl
  constructor
  · obtain ⟨t, ht, hflag, hx, hframe⟩ := writesResultFlag (exec_op8XY6 x y s)
    exact ⟨t, ht, hflag.trans (outRight_ite _), fun h => by rw [hx h, shiftRight_toNat]; rfl, hframe⟩
  · obtain ⟨t, ht, hflag, hx, hframe⟩ := writesResultFlag (exec_op8XYE x y s)
    exact ⟨t, ht, hflag.trans (outLeft_ite _), fun h => by rw [hx h, shiftLeft_toNat]; rfl, hframe⟩

/-- Settles O28: one write of a register, of the input byte masked. -/
theorem randomByteMasked : Obligations.RandomByteMasked := by
  intro x nn s
  obtain ⟨t, ht, hx, hframe⟩ := writesOneRegister (exec_opCXNN x nn s)
  exact ⟨t, ht, fun k => by rw [hx, BitVec.getLsbD_and], hframe⟩

end Sys2Proof.Machine
end

section
/-! SUPPORT. The index register and the data memory (43_index_memory.md, 20_memory.md section 3): the state each instruction
answers in range and out of range, and the settled statements about them. -/

namespace Sys2Proof.Machine

/-! ### What each instruction answers -/

section Results

variable (x y : RegIx) {n : Nat} {s : State}

theorem exec_opFX29 : exec (.opFX29 x) s = .next (s.setIndex (glyphAddr (s.reg x))) := rfl

/-- `FX1E` where it sets the flag: in modern mode, on a sum of 0x1000 or more (R121). -/
theorem exec_opFX1E_flag (hm : s.legacy = false) (ho : 0x1000 ≤ (s.i + s.regExt x).toNat) :
    exec (.opFX1E x) s = .next ((s.setIndex (s.i + s.regExt x)).setReg regF (flagByte true)) := by
  have hc : (!s.legacy && indexOverflow (s.i + s.regExt x)) = true := by
    rw [hm, indexOverflow, decide_eq_true ho]; rfl
  simp only [exec, execFX1E, if_pos hc]

/-- `FX1E` where it leaves `VF` alone (R121). -/
theorem exec_opFX1E_noFlag (h : ¬(s.legacy = false ∧ 0x1000 ≤ (s.i + s.regExt x).toNat)) :
    exec (.opFX1E x) s = .next (s.setIndex (s.i + s.regExt x)) := by
  have hc : (!s.legacy && indexOverflow (s.i + s.regExt x)) = false := by
    cases hm : s.legacy
    · rw [indexOverflow, decide_eq_false fun ho => h ⟨hm, ho⟩]; rfl
    · rfl
  simp only [exec, execFX1E, hc]
  rfl

theorem exec_opFX33_inRange (h : s.i.toNat + 3 ≤ 0x1000) :
    exec (.opFX33 x) s = .next (s.setMem (s.mem.writeAll s.i.toNat (bcdDigits (s.reg x)))) := by
  simp only [exec, execFX33]
  rw [memWrite_ok s (.inr (by rwa [bcdDigits_length])), afterAccess_ok]

theorem exec_opFX55_inRange (h : s.i.toNat + (x.val + 1) ≤ 0x1000) :
    exec (.opFX55 x) s = .next ((s.setMem (s.mem.writeAll s.i.toNat (s.regRun x))).advanceIndex x) := by
  simp only [exec, execFX55]
  rw [memWrite_ok s (.inr (by rwa [regRun_length])), afterAccess_ok]

/-- The bytes `MemRead` gives in range (R44). -/
def State.bytesAtIndex (s : State) (n : Nat) : List Byte := (List.range n).map fun j => s.mem.read (s.i.toNat + j)

@[simp] theorem bytesAtIndex_length (s : State) (n : Nat) : (s.bytesAtIndex n).length = n := by
  simp [State.bytesAtIndex]

theorem bytesAtIndex_getElem (s : State) {n j : Nat} (h : j < (s.bytesAtIndex n).length) :
    (s.bytesAtIndex n)[j] = s.mem.read (s.i.toNat + j) := by
  simp [State.bytesAtIndex]

theorem exec_opFX65_inRange (h : s.i.toNat + (x.val + 1) ≤ 0x1000) :
    exec (.opFX65 x) s = .next ((s.loadRegs 0 (s.bytesAtIndex (x.val + 1))).advanceIndex x) := by
  simp only [exec, execFX65]
  rw [memRead_ok s (.inr h), afterAccess_ok]
  rfl

theorem exec_opDXYN_inRange (h : n = 0 ∨ s.i.toNat + n ≤ 0x1000) :
    exec (.opDXYN x y n) s = .next (s.draw x y (s.bytesAtIndex n)) := by
  simp only [exec, execDXYN]
  rw [memRead_ok s h, afterAccess_ok]
  rfl

/-- Every data access out of range raises with the first address above 0xFFF (R176). -/
theorem exec_outOfRange {i : Instr} (h0 : 0 < accessCount i) (h : 0x1000 < s.i.toNat + accessCount i) :
    exec i s = .next (abandon .dataOutOfRange (BitVec.ofNat 16 (max s.i.toNat 0x1000)) s) := by
  cases i
  case opDXYN x y n =>
    simp only [exec, execDXYN]
    rw [memRead_error (n := n) s h0 h, afterAccess_error]
  case opFX33 x =>
    simp only [exec, execFX33]
    rw [memWrite_error s (by simp) (by simpa [accessCount] using h), afterAccess_error]
  case opFX55 x =>
    simp only [exec, execFX55]
    rw [memWrite_error s (by simp [regRun_length]) (by simpa [regRun_length, accessCount] using h), afterAccess_error]
  case opFX65 x =>
    simp only [exec, execFX65]
    rw [memRead_error (n := x.val + 1) s h0 h, afterAccess_error]
  all_goals exact absurd h0 (Nat.lt_irrefl 0)

end Results

/-! ### Values -/

theorem glyphAddr_toNat (b : Byte) : (glyphAddr b).toNat = 0x050 + 5 * (b.toNat % 16) := by
  simp only [glyphAddr, Config.fontBase, Config.glyphLen, BitVec.toNat_ofNat]
  omega

theorem add_regExt_toNat (s : State) (x : RegIx) : (s.i + s.regExt x).toNat = (s.i.toNat + (s.reg x).toNat) % 65536 := by
  rw [BitVec.toNat_add, regExt_toNat]

/-- The first address of a run above 0xFFF is `I`, or 0x1000 when `I` is below it (R176). -/
theorem firstBadAddress (w : Word) : BitVec.ofNat 16 (max w.toNat 0x1000) = if 0xFFF < w.toNat then w else 0x1000 := by
  split
  · rw [Nat.max_eq_left (by omega), BitVec.ofNat_toNat, BitVec.setWidth_eq]
  · rw [Nat.max_eq_right (by omega)]
    rfl

/-- The advance of `I` in legacy mode never wraps after an access in range (R124, R125). -/
theorem advanceIndex_toNat {s : State} {x : RegIx} (h : s.i.toNat + x.val ≤ 0xFFF) :
    (s.advanceIndex x).i.toNat = if s.legacy then s.i.toNat + x.val + 1 else s.i.toNat := by
  rw [advanceIndex_i]
  split
  · rw [BitVec.toNat_add, BitVec.toNat_ofNat]
    omega
  · rfl

@[simp] theorem advanceIndex_mem (s : State) (x : RegIx) : (s.advanceIndex x).mem = s.mem := by
  rw [advanceIndex_eq]

@[simp] theorem advanceIndex_reg (s : State) (x r : RegIx) : (s.advanceIndex x).reg r = s.reg r := by
  rw [advanceIndex_eq]; rfl

/-! ### The statements -/

/-- Settles O30: one assignment to `I`, of a glyph address that stays below 2^16. -/
theorem pointAtGlyph : Obligations.PointAtGlyph :=
  fun x s => ⟨_, exec_opFX29 x, glyphAddr_toNat (s.reg x), rfl⟩

/-- Settles O31: the cases of the flag are those of the mode and of the new value of `I`. -/
theorem addToIndex : Obligations.AddToIndex := by
  intro x s
  by_cases hflag : s.legacy = false ∧ 0x1000 ≤ (s.i + s.regExt x).toNat
  · obtain ⟨hm, ho⟩ := hflag
    refine ⟨_, exec_opFX1E_flag x hm ho, add_regExt_toNat s x, fun _ => reg_setReg_same _ _ _, fun h => ?_,
      fun r hr => reg_setReg_other _ _ hr, rfl⟩
    rcases h with h | h
    · exact absurd h (by simp [hm])
    · exact absurd ho (Nat.not_le.2 h)
  · exact ⟨_, exec_opFX1E_noFlag x hflag, add_regExt_toNat s x, fun h => absurd h hflag, fun _ => rfl,
      fun _ _ => rfl, rfl⟩

/-- Settles O32: the three writes are a run in range, read back byte by byte. -/
theorem storeDecimalDigits : Obligations.StoreDecimalDigits := by
  intro x s h
  have hrange : s.i.toNat + (bcdDigits (s.reg x)).length ≤ Config.memSize := by
    simp only [bcdDigits_length, Config.memSize]; omega
  have hb : (s.reg x).toNat < 256 := (s.reg x).isLt
  refine ⟨_, exec_opFX33_inRange x (by omega), ?_, ?_, ?_, fun a ha => ?_, rfl⟩ <;>
    rw [setMem_mem, Memory.read_writeAll _ _ _ hrange]
  · rw [dif_pos (by simp)]
    simp [bcdDigits]; omega
  · rw [dif_pos (by simp)]
    simp [bcdDigits]; omega
  · rw [dif_pos (by simp)]
    simp [bcdDigits]; omega
  · rw [dif_neg (by simp; omega)]

/-- Settles O33: the writes are a run in range, read back register by register. -/
theorem storeRegisterRun : Obligations.StoreRegisterRun := by
  intro x s h
  have hrange : s.i.toNat + (s.regRun x).length ≤ Config.memSize := by
    simp only [regRun_length, Config.memSize]; omega
  refine ⟨_, exec_opFX55_inRange x (by omega), fun r hr => ?_, fun a ha => ?_,
    advanceIndex_toNat (s := s.setMem _) h, ?_⟩
  · have hrx : r.val ≤ x.val := hr
    rw [advanceIndex_mem, setMem_mem, Memory.read_writeAll _ _ _ hrange, dif_pos (by rw [regRun_length]; omega)]
    simp [regRun_getElem]
  · rw [advanceIndex_mem, setMem_mem, Memory.read_writeAll _ _ _ hrange, dif_neg (by rw [regRun_length]; omega)]
  · rw [advanceIndex_eq]; rfl

/-- Settles O34: the loads are a run of register writes, of the bytes read in range. -/
theorem loadRegisterRun : Obligations.LoadRegisterRun := by
  intro x s h
  refine ⟨_, exec_opFX65_inRange x (by omega), fun r hr => ?_, fun r hr => ?_, ?_, ?_⟩
  · have hrx : r.val ≤ x.val := hr
    rw [advanceIndex_reg, reg_loadRegs, dif_pos (by rw [bytesAtIndex_length]; omega), bytesAtIndex_getElem]
    simp
  · have hrx : x.val < r.val := hr
    rw [advanceIndex_reg, reg_loadRegs, dif_neg (by rw [bytesAtIndex_length]; omega)]
  · rw [loadRegs_eq]
    exact advanceIndex_toNat h
  · rw [advanceIndex_eq, loadRegs_eq]

/-- Settles O35: all four instructions fail at the check of the whole range, before any of their writes. -/
theorem dataOutOfRangeHalts : Obligations.DataOutOfRangeHalts := by
  intro i s h0 h
  rw [exec_outOfRange h0 (by omega), firstBadAddress]
  rfl

end Sys2Proof.Machine
end

section
/-! SUPPORT. The display (44_display.md): a sprite's bits against the pixels it sets, what a draw leaves, and the settled
statements about them. -/

namespace Sys2Proof.Machine

/-! ### The pixels of a sprite (R131) -/

/-- A sprite's bit is on where a byte of it has the bit of its row and column. -/
theorem spriteBit_iff {bytes : List Byte} {x0 y0 x y : Nat} :
    spriteBit bytes x0 y0 x y = true ↔
      ∃ r c b, bytes[r]? = some b ∧ c < 8 ∧ b.getMsbD c = true ∧ x = x0 + c ∧ y = y0 + r := by
  simp only [spriteBit, Bool.and_eq_true, decide_eq_true_eq]
  constructor
  · rintro ⟨hin, hbit⟩
    split at hbit
    · rename_i b hb
      exact ⟨y - y0, x - x0, b, hb, by omega, hbit, by omega, by omega⟩
    · cases hbit
  · rintro ⟨r, c, b, hb, hc, hbit, rfl, rfl⟩
    refine ⟨by omega, ?_⟩
    rw [Nat.add_sub_cancel_left, Nat.add_sub_cancel_left, hb]
    exact hbit

/-- On the screen a sprite sets exactly the pixels whose bit is on; the others it drops (R131, R132). -/
theorem mem_spritePixels_iff {bytes : List Byte} {x0 y0 x y : Nat} (hx : x < 64) (hy : y < 32) :
    (x, y) ∈ spritePixels x0 y0 bytes ↔ spriteBit bytes x0 y0 x y = true := by
  rw [mem_spritePixels, spriteBit_iff]
  constructor
  · rintro ⟨r, c, b, hb, hc, hbit, hxc, hyr, -, -⟩
    exact ⟨r, c, b, hb, hc, hbit, hxc, hyr⟩
  · rintro ⟨r, c, b, hb, hc, hbit, hxc, hyr⟩
    exact ⟨r, c, b, hb, hc, hbit, hxc, hyr, by omega, by omega⟩

/-- A blit hits exactly when a pixel that was on is one the sprite sets. -/
theorem hit_drawSprite_iff {f : Framebuffer} {x0 y0 : Nat} {bytes : List Byte} :
    (drawSprite f x0 y0 bytes).2 = true ↔
      ∃ px py, px < 64 ∧ py < 32 ∧ f.pixel px py = true ∧ spriteBit bytes x0 y0 px py = true := by
  rw [hit_drawSprite, List.any_eq_true]
  constructor
  · rintro ⟨⟨px, py⟩, hmem, hon⟩
    obtain ⟨hx, hy⟩ := spritePixels_inside hmem
    exact ⟨px, py, hx, hy, hon, (mem_spritePixels_iff hx hy).1 hmem⟩
  · rintro ⟨px, py, hx, hy, hon, hbit⟩
    exact ⟨(px, py), (mem_spritePixels_iff hx hy).2 hbit, hon⟩

/-- The blit of a sprite XORs its bits into the screen. -/
theorem pixel_drawSprite_spriteBit (f : Framebuffer) (x0 y0 : Nat) (bytes : List Byte) {px py : Nat} (hx : px < 64)
    (hy : py < 32) : (drawSprite f x0 y0 bytes).1.pixel px py = (f.pixel px py ^^ spriteBit bytes x0 y0 px py) := by
  simp only [pixel_drawSprite, mem_spritePixels_iff hx hy, Bool.decide_eq_true]

/-- Blitting the same sprite a second time undoes the first. -/
theorem drawSprite_drawSprite (f : Framebuffer) (x0 y0 : Nat) (bytes : List Byte) :
    (drawSprite (drawSprite f x0 y0 bytes).1 x0 y0 bytes).1 = f := by
  refine Framebuffer.ext_pixel fun x y _ _ => ?_
  rw [pixel_drawSprite, pixel_drawSprite, Bool.xor_assoc, Bool.xor_self, Bool.xor_false]

/-- After a blit that hit nothing and changed the screen, the same blit hits. -/
theorem hit_drawSprite_again {f : Framebuffer} {x0 y0 : Nat} {bytes : List Byte}
    (hmiss : (drawSprite f x0 y0 bytes).2 = false) (hne : (drawSprite f x0 y0 bytes).1 ≠ f) : (drawSprite (drawSprite f x0 y0 bytes).1 x0 y0 bytes).2 = true := by
  obtain ⟨p, hp⟩ : ∃ p, p ∈ spritePixels x0 y0 bytes := by
    by_contra hnone
    refine hne (Framebuffer.ext_pixel fun x y _ _ => ?_)
    rw [pixel_drawSprite, decide_eq_false fun h => hnone ⟨_, h⟩, Bool.xor_false]
  have hoff : f.pixel p.1 p.2 = false := by
    rw [hit_drawSprite, List.any_eq_false] at hmiss
    simpa using hmiss p hp
  rw [hit_drawSprite, List.any_eq_true]
  exact ⟨p, hp, by rw [pixel_drawSprite, hoff, decide_eq_true hp]; rfl⟩

/-! ### What a draw leaves (R132) -/

section Draw

variable (s : State) (x y : RegIx) (bytes : List Byte)

theorem draw_fb : (s.draw x y bytes).fb = (drawSprite s.fb (s.originX x) (s.originY y) bytes).1 := rfl

theorem draw_flag :
    (s.draw x y bytes).reg 15 = flagByte (drawSprite s.fb (s.originX x) (s.originY y) bytes).2 :=
  reg_setReg_same (s.setFb _) regF _

theorem draw_reg_other {r : RegIx} (hr : r ≠ 15) : (s.draw x y bytes).reg r = s.reg r :=
  reg_setReg_other (s.setFb _) _ hr

theorem draw_eq : s.draw x y bytes =
    { s with fb := (s.draw x y bytes).fb, v := (s.draw x y bytes).v, redrawPending := true } := rfl

end Draw

/-! ### The statements -/

theorem exec_op00E0 (s : State) : exec .op00E0 s = .next ((s.setFb Framebuffer.clear).setRedraw true) := rfl

/-- Settles O36: the screen becomes the clear one, whose every pixel is off. -/
theorem clearScreen : Obligations.ClearScreen :=
  fun s => ⟨_, exec_op00E0 s, Framebuffer.pixel_clear, rfl, rfl⟩

/-- Settles O37: a draw in range is the blit of the bytes read, and its flag the blit's hit. -/
theorem drawSpriteXorsPixels : Obligations.DrawSpriteXorsPixels := by
  rintro x y n s _ _ _ hrange rfl rfl rfl
  refine ⟨_, exec_opDXYN_inRange x y (by omega), fun px py hx hy => ?_, ?_, rfl, fun r hr => draw_reg_other s x y _ hr,
    draw_eq s x y _⟩
  · exact pixel_drawSprite_spriteBit s.fb _ _ _ hx hy
  · rw [draw_flag]
    cases hhit : (drawSprite s.fb (s.originX x) (s.originY y) (s.bytesAtIndex n)).2
    · refine .inr ⟨fun px py hx hy hon => ?_, rfl⟩
      rw [← Bool.not_eq_true]
      exact fun hbit => Bool.false_ne_true (hhit.symm.trans (hit_drawSprite_iff.2 ⟨px, py, hx, hy, hon, hbit⟩))
    · exact .inl ⟨hit_drawSprite_iff.1 hhit, rfl⟩

/-- Settles O38: both draws blit the same bytes at the same origin, and a blit undoes itself. -/
theorem drawTwiceRestores : Obligations.DrawTwiceRestores := by
  intro x y n s t u hs hrange hfb hmem hi hx hy
  rw [exec_opDXYN_inRange x y hrange] at hs
  obtain rfl := Host.Outcome.next.inj hs
  have hbytes : u.bytesAtIndex n = s.bytesAtIndex n := by simp only [State.bytesAtIndex, hmem, hi]
  have hox : u.originX x = s.originX x := hx
  have hoy : u.originY y = s.originY y := hy
  refine ⟨_, exec_opDXYN_inRange x y (by rwa [hi]), ?_, fun hflag hne => ?_⟩
  · rw [draw_fb, hfb, hbytes, hox, hoy, draw_fb, drawSprite_drawSprite]
  · have hmiss : (drawSprite s.fb (s.originX x) (s.originY y) (s.bytesAtIndex n)).2 = false := by
      rw [draw_flag] at hflag
      cases hhit : (drawSprite s.fb (s.originX x) (s.originY y) (s.bytesAtIndex n)).2
      · rfl
      · rw [hhit] at hflag
        exact absurd hflag (by decide)
    rw [draw_flag, hfb, hbytes, hox, hoy, draw_fb, hit_drawSprite_again hmiss hne]
    rfl

end Sys2Proof.Machine
end

section
/-! SUPPORT. The key wait and the timer instructions (45_keypad_timers.md): the least pressed key, the state each answers,
and the settled statements about them. -/

namespace Sys2Proof.Machine

section KeyWait

variable (x : RegIx) {s : State}

/-! ### The least pressed key (R142) -/

/-- The keys in the order in which the latch is searched. -/
theorem leastKey_eq_find : s.leastKey = (List.finRange 16).find? fun k => s.key k := rfl

theorem leastKey_eq_none (h : ∀ k, s.key k = false) : s.leastKey = none := by
  rw [leastKey_eq_find, List.find?_eq_none]
  exact fun k _ => by simp [h k]

theorem leastKey_eq_some {k : KeyIx} (hk : s.key k = true) (hlow : ∀ j, j < k → s.key j = false) :
    s.leastKey = some k := by
  rw [leastKey_eq_find, List.find?_eq_some_iff_getElem]
  refine ⟨hk, k.val, by simp, by simp, fun j hj => ?_⟩
  simp [hlow ⟨j, by omega⟩ hj]

/-! ### What each instruction answers -/

theorem exec_opFX0A_wait (h : s.leastKey = none) : exec (.opFX0A x) s = .next s.rewind := by
  simp [exec, execFX0A, h]

theorem exec_opFX0A_key {k : KeyIx} (h : s.leastKey = some k) :
    exec (.opFX0A x) s = .next (s.setReg x (BitVec.ofNat 8 k.val)) := by
  simp [exec, execFX0A, h]

variable (s)

theorem exec_opFX07 : exec (.opFX07 x) s = .next (s.setReg x s.dt) := rfl
theorem exec_opFX15 : exec (.opFX15 x) s = .next (s.setDelay (s.reg x)) := rfl
theorem exec_opFX18 : exec (.opFX18 x) s = .next (s.setSound (s.reg x)) := rfl

end KeyWait

/-! ### The statements -/

/-- Settles O40: the search of the latch finds nothing, or the least pressed key. -/
theorem keyWaitInstruction : Obligations.KeyWaitInstruction := by
  intro x s
  refine ⟨fun h => exec_opFX0A_wait x (leastKey_eq_none h), fun k hk hlow => ?_⟩
  obtain ⟨t, ht, hx, hframe⟩ := writesOneRegister (exec_opFX0A_key x (leastKey_eq_some hk hlow))
  exact ⟨t, ht, by rw [hx, BitVec.toNat_ofNat]; omega, hframe⟩

/-- Settles O42: one write of a register or of a timer. -/
theorem timerInstructions : Obligations.TimerInstructions :=
  fun x s => ⟨writesOneRegister (exec_opFX07 x s), exec_opFX15 x s, exec_opFX18 x s⟩

end Sys2Proof.Machine
end

section
/-! SUPPORT. Construction and reset (10_state.md section 6, 70_reset_and_hazards.md section 1), and the settled statements
about them. -/

namespace Sys2Proof.Machine

/-! ### Memory after reset (R32, R41) -/

theorem unlisted_font (j : Fin 80) : Memory.unlisted (0x050 + j.val) = Config.font j := by
  have hin : Config.fontBase ≤ 0x050 + j.val ∧ 0x050 + j.val < Config.fontBase + Config.fontLen := by
    simp only [Config.fontBase, Config.fontLen]; omega
  rw [Memory.unlisted, dif_pos hin]
  exact congrArg Config.font (Fin.ext (Nat.add_sub_cancel_left ..))

theorem unlisted_outside_font {a : Nat} (h : a < 0x050 ∨ 0x0A0 ≤ a) : Memory.unlisted a = 0 := by
  rw [Memory.unlisted, dif_neg (by simp only [Config.fontBase, Config.fontLen]; omega)]

/-! ### Registers and keys after reset -/

theorem reset_reg (r : RegIx) : State.reset.reg r = 0 := by
  simp [State.reg, State.reset]

theorem reset_key (k : KeyIx) : State.reset.key k = false := by
  simp [State.key, State.reset]

/-! ### The loader (R190, R193) -/

theorem construct_accepts {prog : List Byte} (h : prog.length ≤ Config.progMax) (legacy : Bool) :
    construct prog legacy =
      .next { State.reset with mem := State.reset.mem.writeAll Config.progBase prog, legacy := legacy } :=
  if_neg (Nat.not_lt.2 h)

theorem construct_rejects {prog : List Byte} (h : Config.progMax < prog.length) (legacy : Bool) :
    construct prog legacy = .fault (.programTooLong prog.length) :=
  if_pos h

/-! ### The statements -/

/-- Settles O1: reset is what the loader leaves of the empty program, and its memory lists nothing. -/
theorem resetIsConstructedCore : Obligations.ResetIsConstructedCore :=
  ⟨construct_accepts (Nat.zero_le _) false, rfl, rfl, rfl, rfl, rfl, rfl, rfl, rfl, rfl, rfl, rfl, reset_reg, reset_key,
    Framebuffer.pixel_clear, unlisted_font, fun _ => unlisted_outside_font⟩

/-- Settles O2: the loader is one run of writes from 0x200, which the limit keeps inside memory. -/
theorem constructLoadsProgram : Obligations.ConstructLoadsProgram := by
  refine fun prog legacy => ⟨fun hlen => ?_, fun hlong => construct_rejects hlong legacy⟩
  have hrange : Config.progBase + prog.length ≤ Config.memSize := by
    simp only [Config.progBase, Config.memSize]; omega
  refine ⟨_, construct_accepts hlen legacy, rfl, fun j hj => ?_, fun a ha => ?_⟩
  · rw [Memory.read_writeAll _ _ _ hrange, dif_pos (by simp only [Config.progBase]; omega)]
    simp only [Config.progBase, Nat.add_sub_cancel_left]
  · rw [Memory.read_writeAll _ _ _ hrange, dif_neg (by simp only [Config.progBase]; omega)]

/-- Settles O3: reset lists no byte, stacks no address and records no fault. -/
theorem resetMeetsInvariants : Obligations.ResetMeetsInvariants :=
  ⟨Memory.wf_nil, fun _ h => absurd h List.not_mem_nil, rfl, rfl⟩

end Sys2Proof.Machine
end

section
/-! SUPPORT. One step of the sequencer (40_sequencer.md): the fetch as a number, the five ways of `stepCycle` as equations,
and the settled statements about them. -/

namespace Sys2Proof.Machine

/-! ### Fetch (R47, R81) -/

/-- Two bytes as a number, the first the most significant (R47). -/
theorem append_toNat (hi lo : Byte) : (hi ++ lo : Word).toNat = 256 * hi.toNat + lo.toNat := by
  have hlo : lo.toNat < 2 ^ 8 := lo.isLt
  rw [BitVec.toNat_append, ← Nat.shiftLeft_add_eq_or_of_lt hlo, Nat.shiftLeft_eq]
  omega

theorem fetch_atCycle (s : State) (late : Nat) (rnd : Byte) : fetch (s.atCycle late rnd) = fetch s :=
  fetch_congr rfl rfl

/-! ### What a step of the sequencer answers (R80, R81, R83) -/

section Answers

variable {s : State} {late : Nat} {rnd : Byte} {w : Word} {i : Instr} {r : DecodeReject}

theorem stepCycle_fetchFault (h : 0xFFE < s.pc.toNat) : stepCycle s = .next (raise .fetchOutOfRange s.pc s) := by
  rw [stepCycle, fetch_error s h]

theorem stepCycle_illegal (hf : fetch s = .ok w) (hd : decodeWord w = .error r) :
    stepCycle s = .next (raise .illegalOpcode w s) := by
  unfold stepCycle
  rw [hf]
  dsimp only
  rw [hd]

/-- The step that runs `i`, once the execute phase is known. -/
theorem step_runs {t : State} (hs : SequencerTurn s late rnd) (hf : fetch s = .ok w) (hd : decodeWord w = .ok i)
    (he : exec i (s.atCycle late rnd).advance = .next t) :
    step s = .next (if t.halted then t else t.chargeCycle (latency i)) := by
  rw [step_cycle_eq hs, stepCycle_decoded ((fetch_atCycle s late rnd).trans hf) hd, he, charge_next]

/-- The step that runs an instruction which leaves the state as the step found it, `PC` included: only the latency is
charged. -/
theorem step_stays_put (hs : SequencerTurn s late rnd) (hf : fetch s = .ok w) (hd : decodeWord w = .ok i)
    (he : exec i (s.atCycle late rnd).advance = .next (s.atCycle late rnd)) :
    step s = .next { s.atCycle late rnd with nextCycleDue := s.nextCycleDue + latency i } := by
  have hrun : (s.atCycle late rnd).halted = false := hs.2.1
  rw [step_runs hs hf hd he, hrun]
  rfl

/-- Decoding two bytes is decoding their word (R47, R60). -/
theorem decode_pair (hi lo : Byte) : decode [hi, lo] = (decodeWord (hi ++ lo)).map fun i => (i, []) := by
  simp only [decode, wordOfBytes]
  cases decodeWord (hi ++ lo) <;> rfl

theorem decodeWord_of_decode_pair {hi lo : Byte} (h : decode [hi, lo] = .ok (i, [])) :
    decodeWord (hi ++ lo) = .ok i := by
  rw [decode_pair] at h
  cases hd : decodeWord (hi ++ lo) with
  | ok j =>
    rw [hd] at h
    cases h
    rfl
  | error r =>
    rw [hd] at h
    cases h

end Answers

/-! ### A fault of the execute phase (R85, R172) -/

/-- A fault of the execute phase gives back the state the step found, but for the fault registers (R85, R172). -/
theorem exec_halts_precisely {i : Instr} {s t : State} (hs : s.halted = false) (he : exec i s.advance = .next t)
    (hh : t.halted = true) : ∃ c info, c ≠ .none ∧ t = raise c info s := by
  obtain ⟨hkeep, -⟩ | ⟨-, -, rfl⟩ | ⟨-, -, rfl⟩ := exec_fault_cases he
  · have hnot : t.halted = false := hkeep.trans hs
    rw [hnot] at hh
    cases hh
  · exact ⟨.stackUnderflow, _, by decide, by rw [abandon, rewind_advance]⟩
  · exact ⟨.dataOutOfRange, _, by decide, by rw [abandon, rewind_advance]⟩

/-! ### Latency (46_scheduler.md R156) -/

/-- The latency table as a function of the tag and the operand size. -/
def latencyOf (t : Tag) (size : Nat) : Nat :=
  match t with
  | .tDXYN => Config.latDraw size
  | .tFX55 => Config.latStore size
  | .tFX65 => Config.latLoad size
  | t => Config.latFixed t

theorem latency_eq (i : Instr) : latency i = latencyOf i.tag (accessCount i) := by
  cases i <;> rfl

theorem latencyOf_fixed {t : Tag} (h : t ∉ [Tag.tDXYN, Tag.tFX55, Tag.tFX65]) (m n : Nat) :
    latencyOf t m = latencyOf t n := by
  cases t
  case tDXYN | tFX55 | tFX65 => exact absurd (by decide) h
  all_goals rfl

/-! ### The statements -/

/-- Settles O9: in range the fetch is the two bytes at `PC`, appended. -/
theorem fetchIsBigEndian : Obligations.FetchIsBigEndian :=
  fun s h => ⟨_, fetch_ok s h, append_toNat _ _⟩

/-- Settles O10: the two bytes at `PC` are the word fetched, and the step is its execute phase and charge. -/
theorem stepRunsDecodedInstruction : Obligations.StepRunsDecodedInstruction := by
  intro s late rnd i hs hpc hd
  obtain ⟨t, ht⟩ := exec_next i (s.atCycle late rnd).advance
  exact ⟨t, ht, step_runs hs (fetch_ok s hpc) (decodeWord_of_decode_pair hd) ht⟩

/-- Settles O11: the fetch fails before `PC` is advanced, so the state raised is the one the step found. -/
theorem fetchOutOfRangeHalts : Obligations.FetchOutOfRangeHalts := by
  intro s late rnd hs h
  rw [step_cycle_eq hs, stepCycle_fetchFault (s := s.atCycle late rnd) h]
  rfl

/-- Settles O12: the decoder rejects before `PC` is advanced, so the state raised is the one the step found. -/
theorem illegalOpcodeHalts : Obligations.IllegalOpcodeHalts := by
  intro s late rnd w r hs hf hd
  rw [step_cycle_eq hs, stepCycle_illegal ((fetch_atCycle s late rnd).trans hf) hd]
  rfl

/-- Settles O14: the table reads the tag, and the size for three tags only. -/
theorem latencyByTagAndSize : Obligations.LatencyByTagAndSize := by
  intro i j htag hsize
  rw [latency_eq, latency_eq, ← htag]
  by_cases hmem : i.tag ∈ [Tag.tDXYN, Tag.tFX55, Tag.tFX65]
  · rw [hsize hmem]
  · exact latencyOf_fixed hmem _ _

/-- Settles O15: each operation of the host answers a next state, and so does each way a `step_cycle` goes. -/
theorem everyStepAnswersNext : Obligations.EveryStepAnswersNext :=
  fun s => (step_cases s).imp fun _ h => h.1

/-- Settles O41: the wait puts `PC` back, so the execute phase gives the state back as the step found it. -/
theorem keyWaitStepStaysPut : Obligations.KeyWaitStepStaysPut := by
  intro s late rnd w x hs hf hd hkeys
  refine step_stays_put hs hf hd ?_
  rw [exec_opFX0A_wait (s := (s.atCycle late rnd).advance) x (leastKey_eq_none hkeys), rewind_advance]

/-- Settles O59: the jump sets `PC` to the address the step found in it. -/
theorem selfJumpIsTheEnd : Obligations.SelfJumpIsTheEnd := by
  intro s late rnd nnn hs hf hpc
  have hd : decodeWord (packNNN 0x1 nnn) = .ok (.op1NNN nnn) := decodeWord_encodeWord (i := .op1NNN nnn) rfl
  refine step_stays_put hs hf hd ?_
  rw [exec_op1NNN, immAddr, ← hpc]
  rfl

end Sys2Proof.Machine
end

section
/-! SUPPORT. The gates, the frame tick and the framebuffer port (46_scheduler.md): the step each operation of the host
answers, and the settled statements about them. -/

namespace Sys2Proof.Machine

/-! ### What a step that is no step of the sequencer answers -/

section Answers

variable {s : State} {late : Nat} {rnd : Byte}

theorem step_of_nextTurn {turn : HostTurn} (hn : s.nextTurn = turn) : step s = perform turn s.takeTurn :=
  congrArg (perform · s.takeTurn) hn

theorem step_closed (hn : s.nextTurn = .stepCycle late rnd) (hc : s.halted = true ∨ s.redrawPending = true) :
    step s = .next s.takeTurn := by
  rw [step_of_nextTurn hn]
  exact if_pos (by simpa using hc)

theorem step_frameTick (hn : s.nextTurn = .frameTick late) : step s = .next { s with
    dt := tickTimer s.dt, st := tickTimer s.st, redrawPending := false,
    nextFrameDue := s.nextFrameDue + Config.framePeriodUs, presented := some s.fb,
    now := max s.now s.nextFrameDue + late, agenda := s.agenda.tail, turnsTaken := s.turnsTaken + 1 } := by
  rw [step_of_nextTurn hn, perform_frameTick]

end Answers

/-- The moments from `due` and from now on are those reached by some lateness (R151, R152 (c), R153). -/
theorem exists_performedAt_iff {now due moment : Nat} (h : now ≤ moment) :
    (∃ late, performedAt now due late = moment) ↔ due ≤ moment := by
  simp only [performedAt]
  exact ⟨fun ⟨late, hlate⟩ => by omega, fun hdue => ⟨moment - max now due, by omega⟩⟩

/-! ### The statements -/

/-- Settles O43: the turn is taken, and the closed gate lets nothing else happen. -/
theorem closedGateRunsNothing : Obligations.ClosedGateRunsNothing :=
  fun _ _ _ hn hc => step_closed hn hc

/-- Settles O44: with the rest of a gate open, what is left of it is the due time. -/
theorem performedExactlyWhenGateOpen : Obligations.PerformedExactlyWhenGateOpen := by
  intro s moment hnow
  rw [exists_performedAt_iff hnow, exists_performedAt_iff hnow]
  refine ⟨fun hh hr => ?_, fun hc => ?_, decide_eq_true_iff⟩
  · simp [stepGate, hh, hr]
  · rcases hc with hc | hc <;> simp [stepGate, hc]

/-- Settles O45: the tick is one record, and each timer's tick is its truncated predecessor. -/
theorem frameTickEffect : Obligations.FrameTickEffect :=
  fun s _ hn => ⟨_, step_frameTick hn, tickTimer_toNat s.dt, tickTimer_toNat s.st, rfl⟩

/-- Settles O47: the port takes the framebuffer as it stands, at the time it is read. -/
theorem readFramebufferEffect : Obligations.ReadFramebufferEffect := by
  intro s late hn
  rw [step_of_nextTurn hn, ← readFb_eq]
  rfl

/-- A run whose first step answers a next state goes on from there. -/
theorem run_succ {M : Host.Core} {s u : M.State} (h : M.step s = .next u) (n : Nat) : M.run (n + 1) s = M.run n u := by
  rw [Host.Core.run, h]

/-- Settles O48: by induction on the number of ticks, each of which takes one from a timer that is not 0. -/
theorem timersCountTicks : Obligations.TimersCountTicks := by
  intro n
  induction n with
  | zero => exact fun s _ _ => ⟨s, rfl, rfl, rfl, by omega, rfl, rfl, rfl⟩
  | succ n ih =>
    intro s rest hagenda
    have hn : s.nextTurn = .frameTick 0 := by rw [State.nextTurn, hagenda]; rfl
    obtain ⟨u, hu, hudt, hust, hframe⟩ := frameTickEffect s 0 hn
    have hrest : u.agenda = List.replicate n (.frameTick 0) ++ rest := by
      rw [hframe, hagenda]; rfl
    obtain ⟨t, hrun, hdt, hst, hdue, hpc, hv, hfb⟩ := ih u rest hrest
    refine ⟨t, (run_succ (M := core) hu n).trans hrun, by omega, by omega, ?_, ?_, ?_, ?_⟩
    · have hudue : u.nextFrameDue = s.nextFrameDue + Config.framePeriodUs := by rw [hframe]
      rw [hdue, hudue, Nat.succ_mul]; omega
    · rw [hpc, hframe]
    · rw [hv, hframe]
    · rw [hfb, hframe]

end Sys2Proof.Machine
end

section
/-! SUPPORT. What every step keeps (46_scheduler.md, 60_exceptions.md): a step either runs the sequencer or leaves what it
works on at rest, and a step of the sequencer either raises or completes; the settled statements about every step. -/

namespace Sys2Proof.Machine

section Inversions

variable {s t : State}

/-! ### Two inversions of a step -/

/-- What no operation of the host but a performed `step_cycle` changes is as it was (R160, R162, R163, log 12). -/
def SequencerAtRest (s t : State) : Prop :=
  t = { s with
    dt := t.dt, st := t.st, redrawPending := t.redrawPending, nextFrameDue := t.nextFrameDue, keys := t.keys,
    now := t.now, agenda := t.agenda, turnsTaken := t.turnsTaken, presented := t.presented }

theorem StepCase.cycle_or_atRest (h : StepCase s t) :
    (∃ late rnd, SequencerTurn s late rnd ∧ CycleCase (s.atCycle late rnd) t) ∨ SequencerAtRest s t := by
  cases h with
  | cycle late rnd hs hc => exact .inl ⟨late, rnd, hs, hc⟩
  | closed _ _ _ _ ht => subst ht; exact .inr rfl
  | tick _ _ ht => subst ht; exact .inr rfl
  | key _ _ _ _ ht => subst ht; exact .inr rfl
  | readFb _ _ ht => subst ht; exact .inr rfl

/-- An instruction that completes in the state `s` of before the step, and what it leaves before the charge. -/
structure Completes (s : State) (w : Word) (i : Instr) (u : State) : Prop where
  fetched : fetch s = .ok w
  decoded : decodeWord w = .ok i
  executed : exec i s.advance = .next u
  running : u.halted = false

theorem CycleCase.raises_or_completes (h : CycleCase s t) (hs : s.halted = false) :
    (∃ c info, c ≠ .none ∧ t = raise c info s) ∨ ∃ w i u, Completes s w i u ∧ t = u.chargeCycle (latency i) := by
  cases h with
  | fetchFault _ ht => exact .inl ⟨.fetchOutOfRange, _, by decide, ht⟩
  | illegal _ _ _ _ ht => exact .inl ⟨.illegalOpcode, _, by decide, ht⟩
  | execFault _ _ _ _ he hh => exact .inl (exec_halts_precisely hs he hh)
  | completes w i u hf hd he hh ht => exact .inr ⟨w, i, u, ⟨hf, hd, he, hh⟩, ht⟩

/-- A step at the sequencer's turn is a `step_cycle`. -/
theorem cycleCase_of_step {late : Nat} {rnd : Byte} (hs : SequencerTurn s late rnd) (h : step s = .next t) :
    CycleCase (s.atCycle late rnd) t := by
  obtain ⟨u, hu, hcase⟩ := stepCycle_cases (s.atCycle late rnd)
  obtain rfl : t = u := Host.Outcome.next.inj (h.symm.trans ((step_cycle_eq hs).trans hu))
  exact hcase

/-- A state raised in `s` is `s` but for the fault registers, which hold the cause (R172). -/
theorem raised_frame {c : HaltCause} {info : Word} (hc : c ≠ .none) (ht : t = raise c info s) :
    t.haltCause ≠ .none ∧ t = { s with halted := true, haltCause := t.haltCause, haltInfo := t.haltInfo } := by
  subst ht
  exact ⟨hc, rfl⟩

/-! ### Memory (20_memory.md) -/

theorem exec_keeps_memory {i : Instr} (h : exec i s = .next t) (hs : MemoryCanonical s) : MemoryCanonical t := by
  obtain hsame | ⟨-, a, bytes, hmem⟩ := exec_mem_cases h
  · rwa [MemoryCanonical, hsame]
  · rw [MemoryCanonical, hmem]
    exact Memory.wf_writeAll hs a bytes

/-! ### The stack (41_control_flow.md R90) -/

/-- The advanced `PC` of an instruction that was fetched is a return address in range. -/
theorem advance_inRange {w : Word} (hf : fetch s = .ok w) :
    0x0002 ≤ s.advance.pc.toNat ∧ s.advance.pc.toNat ≤ 0x1000 := by
  have hpc := fetch_ok_range hf
  have hadv : s.advance.pc.toNat = (s.pc.toNat + 2) % 65536 := BitVec.toNat_add s.pc 2
  omega

theorem exec_keeps_returnAddresses {i : Instr} (h : exec i s = .next t) (hs : ReturnAddressesInRange s)
    (hpc : 0x0002 ≤ s.pc.toNat ∧ s.pc.toNat ≤ 0x1000) : ReturnAddressesInRange t := by
  intro a ha
  obtain hsame | ⟨-, hpush⟩ | ⟨-, top, hpop⟩ := exec_stack_cases h
  · exact hs a (hsame ▸ ha)
  · rw [hpush] at ha
    obtain rfl | ha := List.mem_cons.1 ha
    · exact hpc
    · exact hs a ha
  · exact hs a (hpop ▸ List.mem_cons_of_mem top ha)

/-! ### The fault registers (60_exceptions.md R171, R172) -/

/-- The record speaks of the fault registers, `PC`, `I`, memory and the stack, and of nothing else. -/
theorem HaltRecordTrue.congr (h : HaltRecordTrue s) (hcause : t.haltCause = s.haltCause) (hhalted : t.halted = s.halted)
    (hinfo : t.haltInfo = s.haltInfo) (hpc : t.pc = s.pc) (hi : t.i = s.i) (hmem : t.mem = s.mem)
    (hstack : t.stack = s.stack) : HaltRecordTrue t := by
  unfold HaltRecordTrue at h ⊢
  rwa [hcause, hhalted, hinfo, hpc, hi, hstack, fetch_congr hpc hmem]

/-- A running core records no fault. -/
theorem HaltRecordTrue.of_running (h : HaltRecordTrue s) (hrun : s.halted = false) :
    s.haltCause = .none ∧ s.haltInfo = 0 := by
  unfold HaltRecordTrue at h
  cases hc : s.haltCause <;> rw [hc] at h
  case none => exact ⟨rfl, h.2⟩
  all_goals exact absurd (hrun.symm.trans h.1) (by decide)

theorem haltRecordTrue_running (hcause : s.haltCause = .none) (hrun : s.halted = false) (hinfo : s.haltInfo = 0) :
    HaltRecordTrue s := by
  unfold HaltRecordTrue
  rw [hcause]
  exact ⟨hrun, hinfo⟩

theorem decodeWord_eq_op00EE {w : Word} (h : decodeWord w = .ok .op00EE) : w = 0x00EE := by
  have hcanon := (encodeDecodeCanonical w _ h).2
  split at hcanon
  · rename_i hop
    exact absurd h (by rcases hop with hop | hop <;> simp [decodeWord, hop])
  · exact hcanon.symm

/-- The record a fault of the execute phase leaves is true. -/
theorem haltRecordTrue_execFault {w : Word} {i : Instr} (hs : s.halted = false) (hf : fetch s = .ok w)
    (hd : decodeWord w = .ok i) (he : exec i s.advance = .next t) (hh : t.halted = true) : HaltRecordTrue t := by
  obtain ⟨hkeep, -⟩ | ⟨rfl, hstack, rfl⟩ | ⟨h0, h, rfl⟩ := exec_fault_cases he
  · exact absurd (hh.symm.trans (hkeep.trans hs)) (by decide)
  · obtain rfl := decodeWord_eq_op00EE hd
    rw [abandon, rewind_advance]
    exact ⟨rfl, hf, rfl, hstack⟩
  · rw [abandon, rewind_advance]
    have hi : s.i.toNat < 65536 := s.i.isLt
    refine ⟨rfl, ?_, w, i, hf, hd, h0, ?_⟩
    · show (BitVec.ofNat 16 (max s.i.toNat 0x1000)).toNat = max s.i.toNat 0x1000
      rw [BitVec.toNat_ofNat]
      omega
    · show 0xFFF < s.i.toNat + accessCount i - 1
      change 0x1000 < s.i.toNat + accessCount i at h
      omega

theorem CycleCase.haltRecordTrue (h : CycleCase s t) (hs : HaltRecordTrue s) (hrun : s.halted = false) :
    HaltRecordTrue t := by
  cases h with
  | fetchFault hpc ht => subst ht; exact ⟨rfl, hpc, rfl⟩
  | illegal w r hf hd ht => subst ht; exact ⟨rfl, hf, r, hd⟩
  | execFault w i hf hd he hh => exact haltRecordTrue_execFault hrun hf hd he hh
  | completes w i u hf hd he hh ht =>
    obtain ⟨hcause, hinfo⟩ := hs.of_running hrun
    obtain ⟨-, hc, hi⟩ | ⟨-, -, rfl⟩ | ⟨-, -, rfl⟩ := exec_fault_cases he
    · subst ht
      exact haltRecordTrue_running (hc.trans hcause) hh (hi.trans hinfo)
    · exact absurd hh (by simp [abandon])
    · exact absurd hh (by simp [abandon])

/-! ### The clocks (46_scheduler.md R151) -/

theorem CycleCase.clocks (h : CycleCase s t) (hs : s.halted = false) :
    t.now = s.now ∧ s.nextCycleDue ≤ t.nextCycleDue ∧ t.nextFrameDue = s.nextFrameDue ∧ t.legacy = s.legacy := by
  obtain ⟨c, info, -, rfl⟩ | ⟨w, i, u, hc, rfl⟩ := h.raises_or_completes hs
  · exact ⟨rfl, Nat.le_refl _, rfl, rfl⟩
  · have ho := exec_sameOutside hc.executed
    have hdue : u.nextCycleDue = s.nextCycleDue := ho.nextCycleDue
    exact ⟨ho.now, by rw [chargeCycle_nextCycleDue]; omega, ho.nextFrameDue, ho.legacy⟩

theorem StepCase.clocks (h : StepCase s t) :
    s.now ≤ t.now ∧ s.nextCycleDue ≤ t.nextCycleDue ∧ s.nextFrameDue ≤ t.nextFrameDue ∧ t.legacy = s.legacy := by
  cases h with
  | cycle late rnd hs hc =>
    obtain ⟨hnow, hcycle, hframe, hmode⟩ := hc.clocks hs.2.1
    rw [atCycle_eq] at hnow hcycle hframe hmode
    exact ⟨by rw [hnow]; simp only; omega, hcycle, hframe.ge, hmode⟩
  | closed _ _ _ _ ht => subst ht; exact ⟨Nat.le_refl _, Nat.le_refl _, Nat.le_refl _, rfl⟩
  | tick _ _ ht => subst ht; exact ⟨by simp only; omega, Nat.le_refl _, Nat.le_add_right _ _, rfl⟩
  | key _ _ _ _ ht => subst ht; exact ⟨Nat.le_add_right _ _, Nat.le_refl _, Nat.le_refl _, rfl⟩
  | readFb _ _ ht => subst ht; exact ⟨Nat.le_add_right _ _, Nat.le_refl _, Nat.le_refl _, rfl⟩

theorem tickTimer_le (b : Byte) : (tickTimer b).toNat ≤ b.toNat := by
  rw [tickTimer_toNat]
  omega

end Inversions

/-! ### The statements -/

/-- Settles O13: a step that halts raises in the state it found, since one that completes is charged and runs on. -/
theorem faultsArePrecise : Obligations.FaultsArePrecise := by
  intro s t late rnd hs hstep hh
  obtain ⟨c, info, hc, ht⟩ | ⟨w, i, u, hcompl, rfl⟩ := (cycleCase_of_step hs hstep).raises_or_completes hs.2.1
  · exact raised_frame hc ht
  · exact absurd (hh.symm.trans hcompl.running) (by decide)

/-- Settles O49: memory is at rest, or a fault leaves it, or an instruction writes a run of bytes into it. -/
theorem stepKeepsMemoryCanonical : Obligations.StepKeepsMemoryCanonical := by
  intro s t hs hstep
  obtain ⟨late, rnd, hseq, hc⟩ | hrest := (stepCase_of_step hstep).cycle_or_atRest
  · obtain ⟨c, info, -, rfl⟩ | ⟨w, i, u, hcompl, rfl⟩ := hc.raises_or_completes hseq.2.1
    · exact hs
    · have hu : MemoryCanonical u := exec_keeps_memory hcompl.executed hs
      exact hu
  · rw [hrest]
    exact hs

/-- Settles O50: the one address a step can push is the advanced `PC`, which the fetch keeps in range. -/
theorem stepKeepsReturnAddresses : Obligations.StepKeepsReturnAddresses := by
  intro s t hs hstep
  obtain ⟨late, rnd, hseq, hc⟩ | hrest := (stepCase_of_step hstep).cycle_or_atRest
  · obtain ⟨c, info, -, rfl⟩ | ⟨w, i, u, hcompl, rfl⟩ := hc.raises_or_completes hseq.2.1
    · exact hs
    · have hu : ReturnAddressesInRange u :=
        exec_keeps_returnAddresses hcompl.executed hs (advance_inRange hcompl.fetched)
      exact hu
  · rw [hrest]
    exact hs

/-- Settles O51: a step that raises records the condition it raised on, and no other step touches what the record speaks
of while the core is halted. -/
theorem stepKeepsHaltRecordTrue : Obligations.StepKeepsHaltRecordTrue := by
  intro s t hs hstep
  obtain ⟨late, rnd, hseq, hc⟩ | hrest := (stepCase_of_step hstep).cycle_or_atRest
  · exact hc.haltRecordTrue (hs.congr rfl rfl rfl rfl rfl rfl rfl) hseq.2.1
  · rw [hrest]
    exact hs.congr rfl rfl rfl rfl rfl rfl rfl

/-- Settles O52: in the halted state the sequencer is at rest, and only a tick moves the timers and the redraw. -/
theorem haltedStateIsFinal : Obligations.HaltedStateIsFinal := by
  intro s t hh hstep
  cases stepCase_of_step hstep with
  | cycle _ _ hs _ => exact absurd (hh.symm.trans hs.2.1) (by decide)
  | closed _ _ _ _ ht => subst ht; exact ⟨rfl, Nat.le_refl _, Nat.le_refl _, id⟩
  | tick _ _ ht => subst ht; exact ⟨rfl, tickTimer_le s.dt, tickTimer_le s.st, fun h => absurd h Bool.false_ne_true⟩
  | key _ _ _ _ ht => subst ht; exact ⟨rfl, Nat.le_refl _, Nat.le_refl _, id⟩
  | readFb _ _ ht => subst ht; exact ⟨rfl, Nat.le_refl _, Nat.le_refl _, id⟩

/-- Settles O53: the gate is closed to the sequencer, and the one operation that moves more is the tick that clears the
redraw. -/
theorem redrawGateHoldsSequencer : Obligations.RedrawGateHoldsSequencer := by
  intro s t hr hstep hstill
  cases stepCase_of_step hstep with
  | cycle _ _ hs _ => exact absurd (hr.symm.trans hs.2.2) (by decide)
  | closed _ _ _ _ ht => subst ht; rfl
  | tick _ _ ht => subst ht; exact absurd hstill Bool.false_ne_true
  | key _ _ _ _ ht => subst ht; rfl
  | readFb _ _ ht => subst ht; rfl

/-- Settles O54: every operation is performed now or later, adds to a due time or leaves it, and leaves the mode. -/
theorem clocksNeverGoBack : Obligations.ClocksNeverGoBack :=
  fun _ _ hstep => (stepCase_of_step hstep).clocks

end Sys2Proof.Machine
end

section
/-! SUPPORT. Who writes what (10_state.md section 7): the ways the execute phase of an instruction changes the state, and
the settled statement about them. -/

namespace Sys2Proof.Machine

/-- The instructions that change `PC` after its advance, a fault aside. -/
def transferTags : List Tag :=
  [.t00EE, .t1NNN, .t2NNN, .tBNNN, .t3XNN, .t4XNN, .t5XY0, .t9XY0, .tEX9E, .tEXA1, .tFX0A]

/-- What the execute phase of `i` can make of `s`, by the pieces of state it writes. -/
inductive ExecEffect (i : Instr) (s t : State) : Prop
  /-- General registers (42_alu.md; FX07, FX0A). -/
  | registers (v : Vector Byte 16) (hv : ∀ r, writesReg i r = false → v[r] = s.v[r]) (ht : t = { s with v := v })
  /-- `I` (ANNN, FX29), and for FX1E the flag too. -/
  | index (v : Vector Byte 16) (w : Word) (hv : ∀ r, writesReg i r = false → v[r] = s.v[r])
      (hi : i.tag ∈ [Tag.tANNN, Tag.tFX1E, Tag.tFX29]) (ht : t = { s with v := v, i := w })
  /-- `PC` (the jumps, the skips, FX0A). -/
  | transfer (w : Word) (hi : i.tag ∈ transferTags) (ht : t = { s with pc := w })
  /-- `PC` and the stack (2NNN, 00EE). -/
  | linkage (w : Word) (l : List Word) (hi : i.tag ∈ [Tag.t2NNN, Tag.t00EE]) (ht : t = { s with pc := w, stack := l })
  /-- The screen, and for DXYN the flag too. -/
  | screen (v : Vector Byte 16) (f : Framebuffer) (hv : ∀ r, writesReg i r = false → v[r] = s.v[r])
      (hi : i.tag ∈ [Tag.t00E0, Tag.tDXYN]) (ht : t = { s with v := v, fb := f, redrawPending := true })
  /-- Memory, and `I` for FX55 in legacy mode. -/
  | store (m : Memory) (w : Word) (hi : i.tag ∈ [Tag.tFX33, Tag.tFX55])
      (hw : w ≠ s.i → s.legacy = true ∧ i.tag = .tFX55) (ht : t = { s with mem := m, i := w })
  /-- The run of FX65, and `I` in legacy mode. -/
  | load (v : Vector Byte 16) (w : Word) (hv : ∀ r, writesReg i r = false → v[r] = s.v[r]) (hi : i.tag = .tFX65)
      (hw : w ≠ s.i → s.legacy = true) (ht : t = { s with v := v, i := w })
  /-- The delay timer. -/
  | delay (b : Byte) (hi : i.tag = .tFX15) (ht : t = { s with dt := b })
  /-- The sound timer. -/
  | sound (b : Byte) (hi : i.tag = .tFX18) (ht : t = { s with st := b })
  /-- A return on an empty stack. -/
  | underflow (hi : i.tag = .t00EE) (ht : t = abandon .stackUnderflow 0x00EE s)
  /-- A data access out of range. -/
  | outOfRange (hi : i.tag ∈ [Tag.tDXYN, Tag.tFX33, Tag.tFX55, Tag.tFX65]) (info : Word)
      (ht : t = abandon .dataOutOfRange info s)

section Effects

variable {i : Instr} {s : State} {x : RegIx}

theorem effect_setReg (b : Byte) (hw : ∀ r, writesReg i r = false → r ≠ x) : ExecEffect i s (s.setReg x b) :=
  .registers _ (fun r hr => reg_setReg_other s b (hw r hr)) rfl

theorem effect_setResultFlag (b : Byte) (f : Bool) (hw : ∀ r, writesReg i r = false → r ≠ x ∧ r ≠ 15) :
    ExecEffect i s (s.setResultFlag x b f) :=
  .registers _ (fun r hr => setResultFlag_other s b f (hw r hr).1 (hw r hr).2) rfl

theorem effect_setIndex (w : Word) (hi : i.tag ∈ [Tag.tANNN, Tag.tFX1E, Tag.tFX29]) : ExecEffect i s (s.setIndex w) :=
  .index s.v w (fun _ _ => rfl) hi rfl

/-- Only in legacy mode does `I` move (R124, R125). -/
theorem legacy_of_index_moved {w : Word} {n : Nat} (hw : w.toNat = if s.legacy then n else s.i.toNat) (hne : w ≠ s.i) :
    s.legacy = true := by
  by_contra hm
  exact hne (BitVec.eq_of_toNat_eq (by rw [hw, if_neg hm]))

theorem tag_of_accessCount (h : 0 < accessCount i) : i.tag ∈ [Tag.tDXYN, Tag.tFX33, Tag.tFX55, Tag.tFX65] := by
  cases i
  case opDXYN | opFX33 | opFX55 | opFX65 => simp [Instr.tag]
  all_goals exact absurd h (Nat.lt_irrefl 0)

theorem effect_outOfRange (h0 : 0 < accessCount i) (h : 0x1000 < s.i.toNat + accessCount i) :
    ∃ t, exec i s = .next t ∧ ExecEffect i s t :=
  ⟨_, exec_outOfRange h0 h, .outOfRange (tag_of_accessCount h0) _ rfl⟩

/-- What the execute phase of every instruction does. -/
theorem exists_execEffect (i : Instr) (s : State) : ∃ t, exec i s = .next t ∧ ExecEffect i s t := by
  cases i
  case op00E0 => exact ⟨_, exec_op00E0 s, .screen s.v _ (fun _ _ => rfl) (by decide) rfl⟩
  case op00EE =>
    cases hs : s.stack with
    | nil => exact ⟨_, exec_op00EE_nil hs, .underflow rfl rfl⟩
    | cons top rest => exact ⟨_, exec_op00EE_cons hs, .linkage top rest (by decide) rfl⟩
  case op1NNN nnn => exact ⟨_, exec_op1NNN nnn s, .transfer _ (by simp [transferTags, Instr.tag]) rfl⟩
  case op2NNN nnn => exact ⟨_, exec_op2NNN nnn s, .linkage _ _ (by simp [Instr.tag]) rfl⟩
  case op3XNN x nn => exact ⟨_, exec_op3XNN x nn s, .transfer _ (by simp [transferTags, Instr.tag]) rfl⟩
  case op4XNN x nn => exact ⟨_, exec_op4XNN x nn s, .transfer _ (by simp [transferTags, Instr.tag]) rfl⟩
  case op5XY0 x y => exact ⟨_, exec_op5XY0 x y s, .transfer _ (by simp [transferTags, Instr.tag]) rfl⟩
  case op9XY0 x y => exact ⟨_, exec_op9XY0 x y s, .transfer _ (by simp [transferTags, Instr.tag]) rfl⟩
  case opBNNN nnn => exact ⟨_, exec_opBNNN nnn s, .transfer _ (by simp [transferTags, Instr.tag]) rfl⟩
  case opEX9E x => exact ⟨_, exec_opEX9E x s, .transfer _ (by simp [transferTags, Instr.tag]) rfl⟩
  case opEXA1 x => exact ⟨_, exec_opEXA1 x s, .transfer _ (by simp [transferTags, Instr.tag]) rfl⟩
  case opFX0A x =>
    cases hk : s.leastKey with
    | none => exact ⟨_, exec_opFX0A_wait x hk, .transfer _ (by simp [transferTags, Instr.tag]) rfl⟩
    | some k => exact ⟨_, exec_opFX0A_key x hk, effect_setReg _ (by simp [writesReg])⟩
  case op6XNN x nn => exact ⟨_, exec_op6XNN x nn s, effect_setReg _ (by simp [writesReg])⟩
  case op7XNN x nn => exact ⟨_, exec_op7XNN x nn s, effect_setReg _ (by simp [writesReg])⟩
  case op8XY0 x y => exact ⟨_, exec_op8XY0 x y s, effect_setReg _ (by simp [writesReg])⟩
  case op8XY1 x y => exact ⟨_, exec_op8XY1 x y s, effect_setReg _ (by simp [writesReg])⟩
  case op8XY2 x y => exact ⟨_, exec_op8XY2 x y s, effect_setReg _ (by simp [writesReg])⟩
  case op8XY3 x y => exact ⟨_, exec_op8XY3 x y s, effect_setReg _ (by simp [writesReg])⟩
  case opCXNN x nn => exact ⟨_, exec_opCXNN x nn s, effect_setReg _ (by simp [writesReg])⟩
  case opFX07 x => exact ⟨_, exec_opFX07 x s, effect_setReg _ (by simp [writesReg])⟩
  case op8XY4 x y => exact ⟨_, exec_op8XY4 x y s, effect_setResultFlag _ _ (by simp [writesReg])⟩
  case op8XY5 x y => exact ⟨_, exec_op8XY5 x y s, effect_setResultFlag _ _ (by simp [writesReg])⟩
  case op8XY6 x y => exact ⟨_, exec_op8XY6 x y s, effect_setResultFlag _ _ (by simp [writesReg])⟩
  case op8XY7 x y => exact ⟨_, exec_op8XY7 x y s, effect_setResultFlag _ _ (by simp [writesReg])⟩
  case op8XYE x y => exact ⟨_, exec_op8XYE x y s, effect_setResultFlag _ _ (by simp [writesReg])⟩
  case opANNN nnn => exact ⟨_, exec_opANNN nnn s, effect_setIndex _ (by simp [Instr.tag])⟩
  case opFX29 x => exact ⟨_, exec_opFX29 x, effect_setIndex _ (by simp [Instr.tag])⟩
  case opFX1E x =>
    by_cases hflag : s.legacy = false ∧ 0x1000 ≤ (s.i + s.regExt x).toNat
    · exact ⟨_, exec_opFX1E_flag x hflag.1 hflag.2,
        .index _ _ (fun r hr => reg_setReg_other (s.setIndex _) _ (by simpa [writesReg] using hr))
          (by simp [Instr.tag]) rfl⟩
    · exact ⟨_, exec_opFX1E_noFlag x hflag, effect_setIndex _ (by simp [Instr.tag])⟩
  case opFX15 x => exact ⟨_, exec_opFX15 x s, .delay _ rfl rfl⟩
  case opFX18 x => exact ⟨_, exec_opFX18 x s, .sound _ rfl rfl⟩
  case opDXYN x y n =>
    by_cases hr : n = 0 ∨ s.i.toNat + n ≤ 0x1000
    · exact ⟨_, exec_opDXYN_inRange x y hr,
        .screen _ _ (fun r hr => draw_reg_other s x y _ (by simpa [writesReg] using hr)) (by simp [Instr.tag]) rfl⟩
    · exact effect_outOfRange (by simp only [accessCount]; omega) (by simp only [accessCount]; omega)
  case opFX33 x =>
    by_cases hr : s.i.toNat + 3 ≤ 0x1000
    · exact ⟨_, exec_opFX33_inRange x hr, .store _ s.i (by simp [Instr.tag]) (fun h => absurd rfl h) rfl⟩
    · exact effect_outOfRange (by simp only [accessCount]; omega) (by simp only [accessCount]; omega)
  case opFX55 x =>
    by_cases hr : s.i.toNat + (x.val + 1) ≤ 0x1000
    · obtain ⟨t, ht, -, -, hi, hframe⟩ := storeRegisterRun x s (by omega)
      exact ⟨t, ht, .store t.mem t.i (by simp [Instr.tag]) (fun hne => ⟨legacy_of_index_moved hi hne, rfl⟩) hframe⟩
    · exact effect_outOfRange (by simp only [accessCount]; omega) (by simp only [accessCount]; omega)
  case opFX65 x =>
    by_cases hr : s.i.toNat + (x.val + 1) ≤ 0x1000
    · obtain ⟨t, ht, -, habove, hi, hframe⟩ := loadRegisterRun x s (by omega)
      exact ⟨t, ht, .load t.v t.i (fun r hr => habove r (by simpa [writesReg] using hr)) rfl
        (fun hne => legacy_of_index_moved hi hne) hframe⟩
    · exact effect_outOfRange (by simp only [accessCount]; omega) (by simp only [accessCount]; omega)

theorem execEffect_of_exec {t : State} (h : exec i s = .next t) : ExecEffect i s t := by
  obtain ⟨u, hu, heffect⟩ := exists_execEffect i s
  obtain rfl := Host.Outcome.next.inj (h.symm.trans hu)
  exact heffect

end Effects

theorem of_ne_self {α : Type} {a : α} {p : Prop} (h : a ≠ a) : p := absurd rfl h

/-- The general registers an effect leaves. -/
theorem ExecEffect.reg_unwritten {i : Instr} {s t : State} (h : ExecEffect i s t) {r : RegIx}
    (hr : writesReg i r = false) : t.reg r = s.reg r := by
  cases h with
  | registers v hv ht | index v w hv hi ht | screen v f hv hi ht | load v w hv hi hw ht => subst ht; exact hv r hr
  | transfer _ _ ht | linkage _ _ _ ht | store _ _ _ _ ht | delay _ _ ht | sound _ _ ht | underflow _ ht
  | outOfRange _ _ ht => subst ht; rfl

theorem of_ne_self_or {α β γ : Type} {a : α} {b : β} {c : γ} {p : Prop} (h : a ≠ a ∨ b ≠ b ∨ c ≠ c) : p :=
  h.elim of_ne_self fun h => h.elim of_ne_self of_ne_self

/-- Settles O55: each effect writes the pieces it names, and its instructions are those the table lets write them. -/
theorem instructionsWriteOnlyTheirState : Obligations.InstructionsWriteOnlyTheirState := by
  intro i s t h
  have ho := exec_sameOutside h
  have heffect := execEffect_of_exec h
  refine ⟨fun r hr => heffect.reg_unwritten hr, ?_⟩
  simp only [ho.legacy, ho.keys, ho.nextCycleDue, ho.nextFrameDue, ho.now, ho.presented, and_self, and_true]
  cases heffect with
  | registers v hv ht =>
    subst ht
    exact ⟨of_ne_self, of_ne_self, of_ne_self, of_ne_self, of_ne_self, of_ne_self, of_ne_self, of_ne_self, of_ne_self_or⟩
  | index v w hv hi ht =>
    subst ht
    exact ⟨fun _ => .inl hi, of_ne_self, of_ne_self, of_ne_self, of_ne_self, of_ne_self, of_ne_self, of_ne_self,
      of_ne_self_or⟩
  | transfer w hi ht =>
    subst ht
    exact ⟨of_ne_self, fun _ => .inl hi, of_ne_self, of_ne_self, of_ne_self, of_ne_self, of_ne_self, of_ne_self,
      of_ne_self_or⟩
  | linkage w l hi ht =>
    subst ht
    have hpc : i.tag ∈ transferTags := (by decide : [Tag.t2NNN, Tag.t00EE] ⊆ transferTags) hi
    exact ⟨of_ne_self, fun _ => .inl hpc, fun _ => hi, of_ne_self, of_ne_self, of_ne_self, of_ne_self, of_ne_self,
      of_ne_self_or⟩
  | screen v f hv hi ht =>
    subst ht
    exact ⟨of_ne_self, of_ne_self, of_ne_self, of_ne_self, fun _ => hi, fun _ => hi, of_ne_self, of_ne_self,
      of_ne_self_or⟩
  | store m w hi hw ht =>
    subst ht
    exact ⟨fun hne => .inr ⟨(hw hne).1, by simp [(hw hne).2]⟩, of_ne_self, of_ne_self, fun _ => hi, of_ne_self,
      of_ne_self, of_ne_self, of_ne_self, of_ne_self_or⟩
  | load v w hv hi hw ht =>
    subst ht
    exact ⟨fun hne => .inr ⟨hw hne, by simp [hi]⟩, of_ne_self, of_ne_self, of_ne_self, of_ne_self, of_ne_self,
      of_ne_self, of_ne_self, of_ne_self_or⟩
  | delay b hi ht =>
    subst ht
    exact ⟨of_ne_self, of_ne_self, of_ne_self, of_ne_self, of_ne_self, of_ne_self, fun _ => hi, of_ne_self,
      of_ne_self_or⟩
  | sound b hi ht =>
    subst ht
    exact ⟨of_ne_self, of_ne_self, of_ne_self, of_ne_self, of_ne_self, of_ne_self, of_ne_self, fun _ => hi,
      of_ne_self_or⟩
  | underflow hi ht =>
    subst ht
    exact ⟨of_ne_self, fun _ => .inl (by simp [hi]), of_ne_self, of_ne_self, of_ne_self, of_ne_self, of_ne_self,
      of_ne_self, fun _ => by simp [hi]⟩
  | outOfRange hi info ht =>
    subst ht
    exact ⟨of_ne_self, fun _ => .inr ⟨hi, rfl, rfl, rfl⟩, of_ne_self, of_ne_self, of_ne_self, of_ne_self, of_ne_self,
      of_ne_self, fun _ => List.mem_cons_of_mem _ hi⟩

end Sys2Proof.Machine
end

section
/-! SUPPORT. What the instructions cannot see (00_scope.md R2, 46_scheduler.md R157, 45_keypad_timers.md R145): a change of
the state that reaches nothing an instruction reads commutes with the execute phase; the settled statements about the mode,
the time and the sound timer. -/

namespace Sys2Proof.Machine

/-! ### Changes no instruction sees -/

/-- The state of an outcome changed by `g`. -/
def mapNext (g : State → State) : Host.Outcome State Fault Refusal → Host.Outcome State Fault Refusal
  | .next s => .next (g s)
  | .fault f => .fault f
  | .refused f => .refused f

@[simp] theorem mapNext_next (g : State → State) (s : State) : mapNext g (.next s) = .next (g s) := rfl

theorem mapNext_withMode (b : Bool) (o : Host.Outcome State Fault Refusal) :
    mapNext (fun s => { s with legacy := b }) o = Outcome.withMode b o := by
  cases o <;> rfl

/-- `g` keeps every field an instruction of whatever mode reads, and commutes with every write of an instruction but that
of the sound timer. -/
structure Unseen (g : State → State) : Prop where
  v : ∀ s, (g s).v = s.v
  i : ∀ s, (g s).i = s.i
  pc : ∀ s, (g s).pc = s.pc
  stack : ∀ s, (g s).stack = s.stack
  dt : ∀ s, (g s).dt = s.dt
  mem : ∀ s, (g s).mem = s.mem
  fb : ∀ s, (g s).fb = s.fb
  keys : ∀ s, (g s).keys = s.keys
  rnd : ∀ s, (g s).rnd = s.rnd
  setReg : ∀ s x b, (g s).setReg x b = g (s.setReg x b)
  setIndex : ∀ s w, (g s).setIndex w = g (s.setIndex w)
  setPc : ∀ s w, (g s).setPc w = g (s.setPc w)
  setStack : ∀ s l, (g s).setStack l = g (s.setStack l)
  setDelay : ∀ s b, (g s).setDelay b = g (s.setDelay b)
  setFb : ∀ s f, (g s).setFb f = g (s.setFb f)
  setRedraw : ∀ s b, (g s).setRedraw b = g (s.setRedraw b)
  setMem : ∀ s m, (g s).setMem m = g (s.setMem m)
  raise : ∀ s c w, raise c w (g s) = g (raise c w s)

namespace Unseen

variable {g : State → State} (hg : Unseen g) (s : State) (x y : RegIx)

include hg

theorem reg : (g s).reg x = s.reg x := by
  rw [reg_eq, reg_eq, hg.v]

theorem regExt : (g s).regExt x = s.regExt x := by
  rw [State.regExt, State.regExt, hg.reg]

theorem key (k : KeyIx) : (g s).key k = s.key k := by
  rw [State.key, State.key, hg.keys]

theorem testedKey : (g s).testedKey x = s.testedKey x := by
  simp only [State.testedKey, hg.reg]

theorem leastKey : (g s).leastKey = s.leastKey := by
  simp only [State.leastKey, hg.key]

theorem regRun : (g s).regRun x = s.regRun x := by
  rw [State.regRun, State.regRun, hg.v]

theorem bytesAtIndex (n : Nat) : (g s).bytesAtIndex n = s.bytesAtIndex n := by
  rw [State.bytesAtIndex, State.bytesAtIndex, hg.i, hg.mem]

theorem setResultFlag (b : Byte) (f : Bool) : (g s).setResultFlag x b f = g (s.setResultFlag x b f) := by
  rw [State.setResultFlag, State.setResultFlag, hg.setReg, hg.setReg]

theorem loadRegs (j : Nat) (bytes : List Byte) : (g s).loadRegs j bytes = g (s.loadRegs j bytes) := by
  induction bytes generalizing s j with
  | nil => rfl
  | cons b rest ih =>
    rw [State.loadRegs, State.loadRegs, ← ih]
    congr 1
    split
    · exact hg.setReg s _ b
    · rfl

theorem draw (bytes : List Byte) : (g s).draw x y bytes = g (s.draw x y bytes) := by
  simp only [State.draw, State.originX, State.originY, hg.reg, hg.fb, hg.setFb, hg.setReg, hg.setRedraw]

theorem abandon (c : HaltCause) (w : Word) : abandon c w (g s) = g (abandon c w s) := by
  rw [abandon_eq, abandon_eq, hg.pc, hg.setPc, hg.raise]

/-- A fault of a data access comes with the change as without it. -/
theorem exec_outOfRange {i : Instr} (h0 : 0 < accessCount i) (h : 0x1000 < s.i.toNat + accessCount i) :
    exec i (g s) = mapNext g (exec i s) := by
  rw [Machine.exec_outOfRange h0 h, Machine.exec_outOfRange h0 (by rwa [hg.i]), mapNext_next, hg.i, hg.abandon]

/-- The mode-dependent operands and writes of R2 see a change that keeps the mode as no change. -/
theorem jumpOffset (hm : (g s).legacy = s.legacy) (nnn : Addr12) : (g s).jumpOffset nnn = s.jumpOffset nnn := by
  simp only [State.jumpOffset, hm, hg.regExt]

theorem shiftSource (hm : (g s).legacy = s.legacy) : (g s).shiftSource x y = s.shiftSource x y := by
  simp only [State.shiftSource, hm, hg.reg]

theorem advanceIndex (hm : (g s).legacy = s.legacy) : (g s).advanceIndex x = g (s.advanceIndex x) := by
  simp only [State.advanceIndex, hm, hg.i, hg.setIndex]
  split <;> rfl

/-- A change no instruction sees commutes with the execute phase: of a mode-dependent instruction if it keeps the mode, of
`FX18` if it commutes with the write of the sound timer. -/
theorem exec {i : Instr} (hmode : modeDependent i.tag = true → ∀ s, (g s).legacy = s.legacy)
    (hsound : i.tag = .tFX18 → ∀ s b, (g s).setSound b = g (s.setSound b)) :
    exec i (g s) = mapNext g (exec i s) := by
  cases i
  case op00E0 => simp only [exec_op00E0, mapNext_next, hg.setFb, hg.setRedraw]
  case op00EE =>
    cases hs : s.stack with
    | nil => rw [exec_op00EE_nil hs, exec_op00EE_nil ((hg.stack s).trans hs), mapNext_next, hg.abandon]
    | cons top rest =>
      rw [exec_op00EE_cons hs, exec_op00EE_cons ((hg.stack s).trans hs), mapNext_next, hg.setStack, hg.setPc]
  case op1NNN nnn => simp only [exec_op1NNN, mapNext_next, hg.setPc]
  case op2NNN nnn => simp only [exec_op2NNN, push_eq, mapNext_next, hg.pc, hg.stack, hg.setStack, hg.setPc]
  case op3XNN x nn => simp only [exec_op3XNN, mapNext_next, hg.reg, hg.pc, hg.setPc]
  case op4XNN x nn => simp only [exec_op4XNN, mapNext_next, hg.reg, hg.pc, hg.setPc]
  case op5XY0 x y => simp only [exec_op5XY0, mapNext_next, hg.reg, hg.pc, hg.setPc]
  case op9XY0 x y => simp only [exec_op9XY0, mapNext_next, hg.reg, hg.pc, hg.setPc]
  case opBNNN nnn => simp only [exec_opBNNN, mapNext_next, hg.jumpOffset s (hmode rfl s), hg.setPc]
  case opEX9E x => simp only [exec_opEX9E, mapNext_next, hg.testedKey, hg.key, hg.pc, hg.setPc]
  case opEXA1 x => simp only [exec_opEXA1, mapNext_next, hg.testedKey, hg.key, hg.pc, hg.setPc]
  case op6XNN x nn => simp only [exec_op6XNN, mapNext_next, hg.setReg]
  case op7XNN x nn => simp only [exec_op7XNN, mapNext_next, hg.reg, hg.setReg]
  case op8XY0 x y => simp only [exec_op8XY0, mapNext_next, hg.reg, hg.setReg]
  case op8XY1 x y => simp only [exec_op8XY1, mapNext_next, hg.reg, hg.setReg]
  case op8XY2 x y => simp only [exec_op8XY2, mapNext_next, hg.reg, hg.setReg]
  case op8XY3 x y => simp only [exec_op8XY3, mapNext_next, hg.reg, hg.setReg]
  case op8XY4 x y => simp only [exec_op8XY4, mapNext_next, hg.reg, hg.setResultFlag]
  case op8XY5 x y => simp only [exec_op8XY5, mapNext_next, hg.reg, hg.setResultFlag]
  case op8XY6 x y => simp only [exec_op8XY6, mapNext_next, hg.shiftSource s _ _ (hmode rfl s), hg.setResultFlag]
  case op8XY7 x y => simp only [exec_op8XY7, mapNext_next, hg.reg, hg.setResultFlag]
  case op8XYE x y => simp only [exec_op8XYE, mapNext_next, hg.shiftSource s _ _ (hmode rfl s), hg.setResultFlag]
  case opCXNN x nn => simp only [exec_opCXNN, mapNext_next, hg.rnd, hg.setReg]
  case opANNN nnn => simp only [exec_opANNN, mapNext_next, hg.setIndex]
  case opFX29 x => simp only [exec_opFX29, mapNext_next, hg.reg, hg.setIndex]
  case opFX07 x => simp only [exec_opFX07, mapNext_next, hg.dt, hg.setReg]
  case opFX15 x => simp only [exec_opFX15, mapNext_next, hg.reg, hg.setDelay]
  case opFX18 x => simp only [exec_opFX18, mapNext_next, hg.reg, hsound rfl]
  case opFX0A x =>
    cases hk : s.leastKey with
    | none =>
      rw [exec_opFX0A_wait x hk, exec_opFX0A_wait x ((hg.leastKey s).trans hk), mapNext_next, rewind_eq, rewind_eq,
        hg.pc, hg.setPc]
    | some k => rw [exec_opFX0A_key x hk, exec_opFX0A_key x ((hg.leastKey s).trans hk), mapNext_next, hg.setReg]
  case opFX1E x =>
    have hsum : (g s).i + (g s).regExt x = s.i + s.regExt x := by rw [hg.i, hg.regExt]
    have hm : (g s).legacy = s.legacy := hmode rfl s
    by_cases hflag : s.legacy = false ∧ 0x1000 ≤ (s.i + s.regExt x).toNat
    · rw [exec_opFX1E_flag x hflag.1 hflag.2, exec_opFX1E_flag x (hm.trans hflag.1) (by rw [hsum]; exact hflag.2),
        mapNext_next, hsum, hg.setIndex, hg.setReg]
    · rw [exec_opFX1E_noFlag x hflag, exec_opFX1E_noFlag x (by rwa [hm, hsum]), mapNext_next, hsum, hg.setIndex]
  case opDXYN x y n =>
    by_cases hr : n = 0 ∨ s.i.toNat + n ≤ 0x1000
    · rw [exec_opDXYN_inRange x y hr, exec_opDXYN_inRange x y (by rwa [hg.i]), mapNext_next, hg.bytesAtIndex, hg.draw]
    · exact hg.exec_outOfRange s (by simp only [accessCount]; omega) (by simp only [accessCount]; omega)
  case opFX33 x =>
    by_cases hr : s.i.toNat + 3 ≤ 0x1000
    · rw [exec_opFX33_inRange x hr, exec_opFX33_inRange x (by rwa [hg.i]), mapNext_next, hg.i, hg.mem, hg.reg, hg.setMem]
    · exact hg.exec_outOfRange s (by simp only [accessCount]; omega) (by simp only [accessCount]; omega)
  case opFX55 x =>
    by_cases hr : s.i.toNat + (x.val + 1) ≤ 0x1000
    · rw [exec_opFX55_inRange x hr, exec_opFX55_inRange x (by rwa [hg.i]), mapNext_next, hg.i, hg.mem, hg.regRun,
        hg.setMem, hg.advanceIndex _ _ (hmode rfl _)]
    · exact hg.exec_outOfRange s (by simp only [accessCount]; omega) (by simp only [accessCount]; omega)
  case opFX65 x =>
    by_cases hr : s.i.toNat + (x.val + 1) ≤ 0x1000
    · rw [exec_opFX65_inRange x hr, exec_opFX65_inRange x (by rwa [hg.i]), mapNext_next, hg.bytesAtIndex, hg.loadRegs,
        hg.advanceIndex _ _ (hmode rfl _)]
    · exact hg.exec_outOfRange s (by simp only [accessCount]; omega) (by simp only [accessCount]; omega)

end Unseen

/-! ### The mode (R2) -/

theorem unseen_mode (b : Bool) : Unseen fun s => { s with legacy := b } := by
  constructor <;> intros <;> rfl

/-- Two outcomes that differ in something a program can see. -/
theorem next_ne_next {α : Type} {s t : State} (view : State → α) (h : view s ≠ view t) :
    (.next s : Host.Outcome State Fault Refusal) ≠ .next t :=
  fun he => h (congrArg view (Host.Outcome.next.inj he))

/-- A state in which each mode-dependent instruction shows its mode: `V0` and `V1` differ, and `I` is 2 below 0x1000. -/
def modeWitness : State := { State.reset with i := 0x0FFE, v := State.reset.v.set 1 2 }

/-! ### A step of the sequencer in two states -/

/-- If two states fetch alike, raise to related states and execute alike to related states, whatever is charged, then a
`step_cycle` takes them to related states. -/
theorem stepCycle_related {R : State → State → Prop} {s t : State} (hfetch : fetch t = fetch s)
    (hraise : ∀ c w, R (raise c w s) (raise c w t))
    (hexec : ∀ i, ∃ u w, exec i s.advance = .next u ∧ exec i t.advance = .next w ∧ w.halted = u.halted ∧
      R u w ∧ ∀ n, R (u.chargeCycle n) (w.chargeCycle n)) :
    ∃ u w, stepCycle s = .next u ∧ stepCycle t = .next w ∧ R u w := by
  cases hf : fetch s with
  | error bad =>
    have ht := hfetch.trans hf
    exact ⟨_, _, by rw [stepCycle, hf], by rw [stepCycle, ht], hraise _ _⟩
  | ok w =>
    have ht := hfetch.trans hf
    cases hd : decodeWord w with
    | error r => exact ⟨_, _, stepCycle_illegal hf hd, stepCycle_illegal ht hd, hraise _ _⟩
    | ok i =>
      obtain ⟨u, w, hu, hw, hh, hR, hcharge⟩ := hexec i
      refine ⟨_, _, by rw [stepCycle_decoded hf hd, hu, charge_next],
        by rw [stepCycle_decoded ht hd, hw, charge_next], ?_⟩
      rw [hh]
      split
      · exact hR
      · exact hcharge _

/-! ### The time (46_scheduler.md R157) -/

/-- `s` at another time and with other due times. -/
def State.withTimes (s : State) (now cycleDue frameDue : Nat) : State :=
  { s with now := now, nextCycleDue := cycleDue, nextFrameDue := frameDue }

theorem unseen_times (now cycleDue frameDue : Nat) : Unseen fun s => s.withTimes now cycleDue frameDue := by
  constructor <;> intros <;> rfl

theorem exec_withTimes {i : Instr} {s u : State} (h : exec i s = .next u) (now cycleDue frameDue : Nat) :
    exec i (s.withTimes now cycleDue frameDue) = .next (u.withTimes now cycleDue frameDue) := by
  have hcomm := (unseen_times now cycleDue frameDue).exec s (i := i) (fun _ _ => rfl) (fun _ _ _ => rfl)
  rw [h] at hcomm
  exact hcomm

theorem stepCycle_withTimes (s : State) (now cycleDue frameDue : Nat) :
    ∃ u w, stepCycle s = .next u ∧ stepCycle (s.withTimes now cycleDue frameDue) = .next w ∧ SameButTime u w := by
  refine stepCycle_related (fetch_congr rfl rfl) (fun _ _ => rfl) fun i => ?_
  obtain ⟨u, hu⟩ := exec_next i s.advance
  exact ⟨u, _, hu, exec_withTimes hu now cycleDue frameDue, rfl, rfl, fun _ => rfl⟩

theorem step_withTimes (s : State) (now cycleDue frameDue : Nat) :
    ∃ u w, step s = .next u ∧ step (s.withTimes now cycleDue frameDue) = .next w ∧ SameButTime u w := by
  obtain ⟨u, hu, hcase⟩ := step_cases s
  cases hcase with
  | cycle late rnd hs _ =>
    rw [step_cycle_eq hs, step_cycle_eq (s := s.withTimes now cycleDue frameDue) hs]
    exact stepCycle_withTimes (s.atCycle late rnd) _ cycleDue frameDue
  | closed _ _ hn hc ht => exact ⟨u, _, hu, step_closed (s := s.withTimes now cycleDue frameDue) hn hc, by rw [ht]; rfl⟩
  | tick _ hn ht => exact ⟨u, _, hu, step_frameTick (s := s.withTimes now cycleDue frameDue) hn, by rw [ht]; rfl⟩
  | key _ _ _ hn ht => exact ⟨u, _, hu, step_keyEvent (s := s.withTimes now cycleDue frameDue) hn, by rw [ht]; rfl⟩
  | readFb _ hn ht => exact ⟨u, _, hu, step_of_nextTurn (s := s.withTimes now cycleDue frameDue) hn, by rw [ht]; rfl⟩

/-! ### The sound timer (R145) -/

/-- `s` with another sound timer. -/
def State.withSound (s : State) (b : Byte) : State := { s with st := b }

theorem unseen_sound (b : Byte) : Unseen fun s => s.withSound b := by
  constructor <;> intros <;> rfl

/-- An instruction leaves the sound timer in its place, or it is `FX18`, which overwrites it. -/
theorem exec_withSound {i : Instr} {s u : State} (h : exec i s = .next u) (b : Byte) :
    ∃ c, exec i (s.withSound b) = .next (u.withSound c) := by
  by_cases hi : i.tag = .tFX18
  · cases i
    case opFX18 x =>
      rw [exec_opFX18] at h
      obtain rfl := Host.Outcome.next.inj h
      exact ⟨s.reg x, rfl⟩
    all_goals cases hi
  · have hcomm := (unseen_sound b).exec s (i := i) (fun _ _ => rfl) (fun h => absurd h hi)
    rw [h] at hcomm
    exact ⟨b, hcomm⟩

theorem stepCycle_withSound (s : State) (b : Byte) :
    ∃ u w, stepCycle s = .next u ∧ stepCycle (s.withSound b) = .next w ∧ SameButSound u w := by
  refine stepCycle_related (fetch_congr rfl rfl) (fun _ _ => rfl) fun i => ?_
  obtain ⟨u, hu⟩ := exec_next i s.advance
  obtain ⟨c, hc⟩ := exec_withSound hu b
  exact ⟨u, _, hu, hc, rfl, rfl, fun _ => rfl⟩

theorem step_withSound (s : State) (b : Byte) :
    ∃ u w, step s = .next u ∧ step (s.withSound b) = .next w ∧ SameButSound u w := by
  obtain ⟨u, hu, hcase⟩ := step_cases s
  cases hcase with
  | cycle late rnd hs _ =>
    rw [step_cycle_eq hs, step_cycle_eq (s := s.withSound b) hs]
    exact stepCycle_withSound (s.atCycle late rnd) b
  | closed _ _ hn hc ht => exact ⟨u, _, hu, step_closed (s := s.withSound b) hn hc, by rw [ht]; rfl⟩
  | tick _ hn ht => exact ⟨u, _, hu, step_frameTick (s := s.withSound b) hn, by rw [ht]; rfl⟩
  | key _ _ _ hn ht => exact ⟨u, _, hu, step_keyEvent (s := s.withSound b) hn, by rw [ht]; rfl⟩
  | readFb _ hn ht => exact ⟨u, _, hu, step_of_nextTurn (s := s.withSound b) hn, by rw [ht]; rfl⟩

/-! ### The statements -/

/-- Settles O56: a change of the mode is unseen by the instructions that do not read it; each of the six tags shows its mode
in the register, in `PC` or in `I` that R2 names. -/
theorem modeChangesFourFamiliesOnly : Obligations.ModeChangesFourFamiliesOnly := by
  refine ⟨fun i s b hi => ?_, fun tag htag => ?_⟩
  · rw [← mapNext_withMode]
    exact (unseen_mode b).exec s (fun h => absurd (hi.symm.trans h) (by decide)) (fun _ _ _ => rfl)
  · cases tag
    case t8XY6 => exact ⟨.op8XY6 0 1, modeWitness, rfl, rfl, next_ne_next (fun t => t.reg 0) (by decide)⟩
    case t8XYE => exact ⟨.op8XYE 0 1, modeWitness, rfl, rfl, next_ne_next (fun t => t.reg 0) (by decide)⟩
    case tFX1E => exact ⟨.opFX1E 1, modeWitness, rfl, rfl, next_ne_next (fun t => t.reg 15) (by decide)⟩
    case tBNNN => exact ⟨.opBNNN 0x100, modeWitness, rfl, rfl, next_ne_next (fun t => t.pc) (by decide)⟩
    case tFX55 => exact ⟨.opFX55 0, modeWitness, rfl, rfl, next_ne_next (fun t => t.i) (by decide)⟩
    case tFX65 => exact ⟨.opFX65 0, modeWitness, rfl, rfl, next_ne_next (fun t => t.i) (by decide)⟩
    all_goals cases htag

/-- Settles O57: a change of the times is unseen by every instruction, and no operation of the host reads a time into
anything but the times. -/
theorem timeDoesNotReachProgram : Obligations.TimeDoesNotReachProgram := by
  intro s t h
  obtain ⟨u, w, hu, hw, hR⟩ := step_withTimes s t.now t.nextCycleDue t.nextFrameDue
  have ht : t = s.withTimes t.now t.nextCycleDue t.nextFrameDue := h
  rw [ht, hu, hw]
  exact hR

/-- Settles O58: a change of the sound timer is unseen by every instruction but `FX18`, which overwrites it, and a tick
reads it into nothing but itself. -/
theorem soundTimerUnobservable : Obligations.SoundTimerUnobservable := by
  intro s t u h hu
  obtain ⟨u', w, hu', hw, hR⟩ := step_withSound s t.st
  have ht : t = s.withSound t.st := h
  obtain rfl := Host.Outcome.next.inj (hu.symm.trans hu')
  exact ⟨w, by rw [ht, hw], hR⟩

end Sys2Proof.Machine
end

section
/-! SUPPORT. Runs under fairness (46_scheduler.md R165, 70_reset_and_hazards.md R203): what one operation of a run leaves for
the gates, and the settled statement about progress. -/

namespace Sys2Proof.Machine

section Runs

variable {turns : Nat → HostTurn} {run : Nat → State}

/-! ### One operation of a run -/

/-- An operation that is no tick leaves the frame clock. -/
theorem HostRun.nextFrameDue_of_not_tick (h : HostRun turns run) {n : Nat} (hn : ¬IsTick (turns n)) :
    (run (n + 1)).nextFrameDue = (run n).nextFrameDue := by
  cases h.stepCase n with
  | cycle late rnd hs hc => exact (hc.clocks hs.2.1).2.2.1
  | closed _ _ _ _ ht => rw [ht]
  | tick late hturn _ => exact absurd ⟨late, hturn⟩ hn
  | key _ _ _ _ ht => rw [ht]
  | readFb _ _ ht => rw [ht]

/-- A tick clears the pending redraw. -/
theorem HostRun.redraw_of_tick (h : HostRun turns run) {n : Nat} (hn : IsTick (turns n)) :
    (run (n + 1)).redrawPending = false := by
  obtain ⟨late, hlate⟩ := hn
  have hstep := h n
  rw [hlate, perform_frameTick] at hstep
  rw [← Host.Outcome.next.inj hstep]

/-- An operation that is no performed `step_cycle` halts nothing, charges nothing and asks for no redraw. -/
theorem HostRun.keeps_gate_of_not_cycle (h : HostRun turns run) {n : Nat} (hn : ¬IsCycle (turns n) (run n)) :
    (run (n + 1)).halted = (run n).halted ∧ (run (n + 1)).nextCycleDue = (run n).nextCycleDue ∧
      ((run n).redrawPending = false → (run (n + 1)).redrawPending = false) := by
  cases h.stepCase n with
  | cycle late rnd hs _ => exact absurd ⟨⟨late, rnd, hs.1⟩, hs.2⟩ hn
  | closed _ _ _ _ ht => rw [ht]; exact ⟨rfl, rfl, id⟩
  | tick _ _ ht => rw [ht]; exact ⟨rfl, rfl, fun _ => rfl⟩
  | key _ _ _ _ ht => rw [ht]; exact ⟨rfl, rfl, id⟩
  | readFb _ _ ht => rw [ht]; exact ⟨rfl, rfl, id⟩

theorem HostRun.now_mono (h : HostRun turns run) : Monotone fun n => (run n).now :=
  monotone_nat_of_le_succ fun n => (h.stepCase n).clocks.1

/-! ### Stretches of a run -/

theorem HostRun.nextFrameDue_of_no_tick (h : HostRun turns run) {n : Nat} (hno : ∀ m, n ≤ m → ¬IsTick (turns m)) :
    ∀ m, n ≤ m → (run m).nextFrameDue = (run n).nextFrameDue := by
  intro m hm
  induction m, hm using Nat.le_induction with
  | base => rfl
  | succ m hm ih => exact (h.nextFrameDue_of_not_tick (hno m hm)).trans ih

/-- Without a performed `step_cycle` an open gate of R152 (a), (b) stays open and the due time stays. -/
theorem HostRun.gate_of_no_cycle (h : HostRun turns run) {n : Nat} (hno : ∀ m, n ≤ m → ¬IsCycle (turns m) (run m))
    (hh : (run n).halted = false) (hr : (run n).redrawPending = false) : ∀ m, n ≤ m →
    (run m).halted = false ∧ (run m).redrawPending = false ∧ (run m).nextCycleDue = (run n).nextCycleDue := by
  intro m hm
  induction m, hm using Nat.le_induction with
  | base => exact ⟨hh, hr, rfl⟩
  | succ m hm ih =>
    obtain ⟨ihh, ihr, ihdue⟩ := ih
    obtain ⟨hhalt, hdue, hredraw⟩ := h.keeps_gate_of_not_cycle (hno m hm)
    exact ⟨hhalt.trans ihh, hredraw ihr, hdue.trans ihdue⟩

theorem HostRun.halted_of_no_cycle (h : HostRun turns run) {n : Nat} (hno : ∀ m, n ≤ m → ¬IsCycle (turns m) (run m)) :
    ∀ m, n ≤ m → (run m).halted = (run n).halted := by
  intro m hm
  induction m, hm using Nat.le_induction with
  | base => rfl
  | succ m hm ih => exact (h.keeps_gate_of_not_cycle (hno m hm)).1.trans ih

/-- From some moment at or after `n` on, the time has passed `bound` (R165). -/
theorem FairRun.eventually_past (h : FairRun turns run) (bound n : Nat) :
    ∃ k, n ≤ k ∧ ∀ m, k ≤ m → bound ≤ (run m).now := by
  obtain ⟨j, hj⟩ := h.timeGrows bound
  exact ⟨max n j, Nat.le_max_left n j, fun m hm => hj.trans (h.isRun.now_mono (by omega))⟩

/-! ### Progress -/

theorem FairRun.exists_tick (h : FairRun turns run) (n : Nat) : ∃ m, n ≤ m ∧ IsTick (turns m) := by
  by_contra hnone
  have hno : ∀ m, n ≤ m → ¬IsTick (turns m) := fun m hm ht => hnone ⟨m, hm, ht⟩
  obtain ⟨k, hnk, hk⟩ := h.eventually_past (run n).nextFrameDue n
  have hopen : ∀ m, k ≤ m → frameGate (run m).now (run m) = true := fun m hm => by
    rw [frameGate, h.isRun.nextFrameDue_of_no_tick hno m (hnk.trans hm)]
    exact decide_eq_true (hk m hm)
  obtain ⟨m, hm, ht⟩ := h.tickFair k hopen
  exact hno m (hnk.trans hm) ht

theorem FairRun.exists_redraw_cleared (h : FairRun turns run) (n : Nat) :
    ∃ m, n ≤ m ∧ (run m).redrawPending = false := by
  obtain ⟨m, hm, ht⟩ := h.exists_tick n
  exact ⟨m + 1, by omega, h.isRun.redraw_of_tick ht⟩

theorem FairRun.exists_cycle (h : FairRun turns run) {n : Nat} (hh : (run n).halted = false) :
    ∃ m, n ≤ m ∧ IsCycle (turns m) (run m) := by
  by_contra hnone
  have hno : ∀ m, n ≤ m → ¬IsCycle (turns m) (run m) := fun m hm hc => hnone ⟨m, hm, hc⟩
  obtain ⟨j, hnj, hr⟩ := h.exists_redraw_cleared n
  have hhj : (run j).halted = false := (h.isRun.halted_of_no_cycle hno j hnj).trans hh
  have hgate := h.isRun.gate_of_no_cycle (fun m hm => hno m (hnj.trans hm)) hhj hr
  obtain ⟨k, hjk, hk⟩ := h.eventually_past (run j).nextCycleDue j
  have hopen : ∀ m, k ≤ m → stepGate (run m).now (run m) = true := fun m hm => by
    obtain ⟨hhm, hrm, hdue⟩ := hgate m (hjk.trans hm)
    simp [stepGate, hhm, hrm, hdue, hk m hm]
  obtain ⟨m, hm, hc⟩ := h.cycleFair k hopen
  exact hno m ((hnj.trans hjk).trans hm) hc

end Runs

/-- Settles O60: without a tick the frame gate opens for good, and without a performed `step_cycle` the step gate does once
a tick has cleared the redraw, so that fairness contradicts either. -/
theorem fairRunsProgress : Obligations.FairRunsProgress :=
  fun _ _ h => ⟨h.exists_tick, h.exists_redraw_cleared, fun _ => h.exists_cycle⟩

end Sys2Proof.Machine
end
